-- ==== Sys2Proof/Word.lean ====
section
/-!
DEFINITION. The words of the machine (spec/00_scope.md R5, R7): every value is an unsigned number of a stated width.
-/
namespace Sys2Proof

/-- A byte: the width of a general register, of a memory cell and of a timer (R5 XLEN, "timer width"). -/
abbrev Byte := BitVec 8

/-- A 16-bit word: `pc`, `I`, a stack entry, an instruction (R5 PC_WIDTH, I_WIDTH, ILEN). -/
abbrev Word := BitVec 16

/-- The 12-bit address immediate `nnn` (R61). -/
abbrev Addr12 := BitVec 12

/-- A hexadecimal digit of an instruction word (R61): a secondary opcode or the row count `n`. -/
abbrev Digit := Fin 16

/-- A general register number, 0 to 15: "a register access made by an instruction can never be out of range" (R10). -/
abbrev Reg := Fin 16

/-- `VF`, register 15 (R10, R11). -/
abbrev Reg.vf : Reg := 15

/-- `V0`, the implicit offset of Bnnn (R94). -/
abbrev Reg.v0 : Reg := 0

end Sys2Proof
end

