-- ==== Sys2Proof/Syntax.lean ====
section
/-!
DEFINITION. The 35 instructions of spec/30_encoding.md R65, one constructor per row of spec/opcode_table.json, in its order.

Operands have the widths of R61 and R63: `x`, `y` register numbers, `kk` a byte, `nnn` a 12-bit address, `n` a row count 0
to 15; every value of each is legal. `shr` and `shl` keep the don't-care field `y` of 8xy6 and 8xyE (R67), so that an
instruction determines its word.
-/
namespace Sys2Proof

inductive Instr
  /-- 0000 `NOP` (R90). -/
  | nop
  /-- 00E0 `CLS` (R150). -/
  | cls
  /-- 00EE `RET` (R91). -/
  | ret
  /-- 1nnn `JP nnn` (R92). -/
  | jp (nnn : Addr12)
  /-- 2nnn `CALL nnn` (R93). -/
  | call (nnn : Addr12)
  /-- 3xkk `SE Vx, kk` (R100). -/
  | seByte (x : Reg) (kk : Byte)
  /-- 4xkk `SNE Vx, kk` (R101). -/
  | sneByte (x : Reg) (kk : Byte)
  /-- 5xy0 `SE Vx, Vy` (R102). -/
  | seReg (x y : Reg)
  /-- 6xkk `LD Vx, kk` (R110). -/
  | ldByte (x : Reg) (kk : Byte)
  /-- 7xkk `ADD Vx, kk` (R111). -/
  | addByte (x : Reg) (kk : Byte)
  /-- 8xy0 `LD Vx, Vy` (R112). -/
  | ldReg (x y : Reg)
  /-- 8xy1 `OR Vx, Vy` (R113). -/
  | orReg (x y : Reg)
  /-- 8xy2 `AND Vx, Vy` (R114). -/
  | andReg (x y : Reg)
  /-- 8xy3 `XOR Vx, Vy` (R115). -/
  | xorReg (x y : Reg)
  /-- 8xy4 `ADD Vx, Vy` (R116). -/
  | addReg (x y : Reg)
  /-- 8xy5 `SUB Vx, Vy` (R117). -/
  | subReg (x y : Reg)
  /-- 8xy6 `SHR Vx` (R118). -/
  | shr (x y : Reg)
  /-- 8xy7 `SUBN Vx, Vy` (R119). -/
  | subnReg (x y : Reg)
  /-- 8xyE `SHL Vx` (R120). -/
  | shl (x y : Reg)
  /-- 9xy0 `SNE Vx, Vy` (R103). -/
  | sneReg (x y : Reg)
  /-- Annn `LD I, nnn` (R130). -/
  | ldI (nnn : Addr12)
  /-- Bnnn `JP V0, nnn` (R94). -/
  | jpV0 (nnn : Addr12)
  /-- Cxkk `RND Vx, kk` (R140). -/
  | rnd (x : Reg) (kk : Byte)
  /-- Dxyn `DRW Vx, Vy, n` (R151). -/
  | drw (x y : Reg) (n : Digit)
  /-- Ex9E `SKP Vx` (R141). -/
  | skp (x : Reg)
  /-- ExA1 `SKNP Vx` (R142). -/
  | sknp (x : Reg)
  /-- Fx07 `LD Vx, DT` (R143). -/
  | ldVxDT (x : Reg)
  /-- Fx0A `LD Vx, K` (R144). -/
  | ldVxK (x : Reg)
  /-- Fx15 `LD DT, Vx` (R145). -/
  | ldDTVx (x : Reg)
  /-- Fx18 `LD ST, Vx` (R146). -/
  | ldSTVx (x : Reg)
  /-- Fx1E `ADD I, Vx` (R131). -/
  | addIVx (x : Reg)
  /-- Fx29 `LD F, Vx` (R132). -/
  | ldFVx (x : Reg)
  /-- Fx33 `LD B, Vx` (R133). -/
  | ldBVx (x : Reg)
  /-- Fx55 `LD [I], Vx` (R134). -/
  | ldMemVx (x : Reg)
  /-- Fx65 `LD Vx, [I]` (R135). -/
  | ldVxMem (x : Reg)
  deriving DecidableEq, Repr

/-! ### Assembler text (R69)
The customary mnemonics, which carry no semantic content (decision D19, log 21). -/

/-- One hexadecimal digit, capital letters as in `V0` to `VF`. -/
def Digit.text (d : Digit) : String :=
  match d.val with
  | 10 => "A" | 11 => "B" | 12 => "C" | 13 => "D" | 14 => "E" | 15 => "F"
  | n => toString n

/-- A register's name, `V0` to `VF` (R10). -/
def Reg.text (x : Reg) : String := "V" ++ Digit.text x

/-- A hexadecimal number with the prefix `0x` and the given count of digits (R7). -/
def hexText (digits value : Nat) : String :=
  "0x" ++ String.join ((List.range digits).reverse.map fun k => Digit.text (Fin.ofNat 16 (value / 16 ^ k)))

/-- What a disassembler prints (R69): it "prints any 8xy6 or 8xyE as SHR Vx or SHL Vx whatever y is". -/
def Instr.text : Instr → String
  | .nop => "NOP"
  | .cls => "CLS"
  | .ret => "RET"
  | .jp nnn => "JP " ++ hexText 3 nnn.toNat
  | .call nnn => "CALL " ++ hexText 3 nnn.toNat
  | .seByte x kk => "SE " ++ x.text ++ ", " ++ hexText 2 kk.toNat
  | .sneByte x kk => "SNE " ++ x.text ++ ", " ++ hexText 2 kk.toNat
  | .seReg x y => "SE " ++ x.text ++ ", " ++ y.text
  | .ldByte x kk => "LD " ++ x.text ++ ", " ++ hexText 2 kk.toNat
  | .addByte x kk => "ADD " ++ x.text ++ ", " ++ hexText 2 kk.toNat
  | .ldReg x y => "LD " ++ x.text ++ ", " ++ y.text
  | .orReg x y => "OR " ++ x.text ++ ", " ++ y.text
  | .andReg x y => "AND " ++ x.text ++ ", " ++ y.text
  | .xorReg x y => "XOR " ++ x.text ++ ", " ++ y.text
  | .addReg x y => "ADD " ++ x.text ++ ", " ++ y.text
  | .subReg x y => "SUB " ++ x.text ++ ", " ++ y.text
  | .shr x _ => "SHR " ++ x.text
  | .subnReg x y => "SUBN " ++ x.text ++ ", " ++ y.text
  | .shl x _ => "SHL " ++ x.text
  | .sneReg x y => "SNE " ++ x.text ++ ", " ++ y.text
  | .ldI nnn => "LD I, " ++ hexText 3 nnn.toNat
  | .jpV0 nnn => "JP V0, " ++ hexText 3 nnn.toNat
  | .rnd x kk => "RND " ++ x.text ++ ", " ++ hexText 2 kk.toNat
  | .drw x y n => "DRW " ++ x.text ++ ", " ++ y.text ++ ", " ++ toString n.val
  | .skp x => "SKP " ++ x.text
  | .sknp x => "SKNP " ++ x.text
  | .ldVxDT x => "LD " ++ x.text ++ ", DT"
  | .ldVxK x => "LD " ++ x.text ++ ", K"
  | .ldDTVx x => "LD DT, " ++ x.text
  | .ldSTVx x => "LD ST, " ++ x.text
  | .addIVx x => "ADD I, " ++ x.text
  | .ldFVx x => "LD F, " ++ x.text
  | .ldBVx x => "LD B, " ++ x.text
  | .ldMemVx x => "LD [I], " ++ x.text
  | .ldVxMem x => "LD " ++ x.text ++ ", [I]"

end Sys2Proof
end

