-- ==== Sys2Proof/Decode.lean ====
section
/-!
DEFINITION. Decoding and encoding (spec/30_encoding.md R60 to R67, spec/40_step_cycle.md R82).

The decoder is the decode tree of R64, a pure function of the word. The encoder is written from the formats of R62.
-/
namespace Sys2Proof

/-- What the decoder answers: an instruction, or a rejection by name. -/
inductive Decoded
  /-- The word is this instruction. -/
  | instr (i : Instr)
  /-- No row of R65 matches the word: it raises `UnsupportedOpcode(word)` (R66, R82). -/
  | unsupportedOpcode (w : Word)
  deriving DecidableEq, Repr

/-! ### Fields (R61) -/

/-- `digit1 = w[15:12]`, the primary opcode. -/
def digit1 (w : Word) : Digit := (w.extractLsb' 12 4).toFin

/-- `digit2 = w[11:8]`, the register number `x`. -/
def digit2 (w : Word) : Digit := (w.extractLsb' 8 4).toFin

/-- `digit3 = w[7:4]`, the register number `y`. -/
def digit3 (w : Word) : Digit := (w.extractLsb' 4 4).toFin

/-- `digit4 = w[3:0]`, the secondary opcode or the row count `n`. -/
def digit4 (w : Word) : Digit := (w.extractLsb' 0 4).toFin

/-- `kk = w[7:0]`. -/
def byteField (w : Word) : Byte := w.extractLsb' 0 8

/-- `nnn = w[11:0]`. -/
def addrField (w : Word) : Addr12 := w.extractLsb' 0 12

/-- The word of two bytes, most significant byte first (R45, R60). -/
def wordOfBytes (hi lo : Byte) : Word := hi ++ lo

/-- The byte at the lower address, `digit1 ++ digit2` (R61). -/
def highByte (w : Word) : Byte := w.extractLsb' 8 8

/-- The byte at the higher address, `kk` (R61). -/
def lowByte (w : Word) : Byte := w.extractLsb' 0 8

/-! ### The decoder (R64) -/

/-- Family 0: exactly three words of the 0x0nnn space are instructions (R64, C6). -/
def decodeFamily0 (w : Word) : Decoded :=
  if w = 0x0000#16 then .instr .nop
  else if w = 0x00E0#16 then .instr .cls
  else if w = 0x00EE#16 then .instr .ret
  else .unsupportedOpcode w

/-- Family 8, selected by `digit4` (R64). -/
def decodeFamily8 (w : Word) : Decoded :=
  match (digit4 w).val with
  | 0x0 => .instr (.ldReg (digit2 w) (digit3 w))
  | 0x1 => .instr (.orReg (digit2 w) (digit3 w))
  | 0x2 => .instr (.andReg (digit2 w) (digit3 w))
  | 0x3 => .instr (.xorReg (digit2 w) (digit3 w))
  | 0x4 => .instr (.addReg (digit2 w) (digit3 w))
  | 0x5 => .instr (.subReg (digit2 w) (digit3 w))
  | 0x6 => .instr (.shr (digit2 w) (digit3 w))
  | 0x7 => .instr (.subnReg (digit2 w) (digit3 w))
  | 0xE => .instr (.shl (digit2 w) (digit3 w))
  | _ => .unsupportedOpcode w

/-- Family E, selected by the low byte (R64). -/
def decodeFamilyE (w : Word) : Decoded :=
  match (byteField w).toNat with
  | 0x9E => .instr (.skp (digit2 w))
  | 0xA1 => .instr (.sknp (digit2 w))
  | _ => .unsupportedOpcode w

/-- Family F, selected by the low byte (R64). -/
def decodeFamilyF (w : Word) : Decoded :=
  match (byteField w).toNat with
  | 0x07 => .instr (.ldVxDT (digit2 w))
  | 0x0A => .instr (.ldVxK (digit2 w))
  | 0x15 => .instr (.ldDTVx (digit2 w))
  | 0x18 => .instr (.ldSTVx (digit2 w))
  | 0x1E => .instr (.addIVx (digit2 w))
  | 0x29 => .instr (.ldFVx (digit2 w))
  | 0x33 => .instr (.ldBVx (digit2 w))
  | 0x55 => .instr (.ldMemVx (digit2 w))
  | 0x65 => .instr (.ldVxMem (digit2 w))
  | _ => .unsupportedOpcode w

/-- The decoder: `digit1` selects the family (R64). The last arm is never taken: a digit is below 16. -/
def decode (w : Word) : Decoded :=
  match (digit1 w).val with
  | 0x0 => decodeFamily0 w
  | 0x1 => .instr (.jp (addrField w))
  | 0x2 => .instr (.call (addrField w))
  | 0x3 => .instr (.seByte (digit2 w) (byteField w))
  | 0x4 => .instr (.sneByte (digit2 w) (byteField w))
  | 0x5 => if digit4 w = 0 then .instr (.seReg (digit2 w) (digit3 w)) else .unsupportedOpcode w
  | 0x6 => .instr (.ldByte (digit2 w) (byteField w))
  | 0x7 => .instr (.addByte (digit2 w) (byteField w))
  | 0x8 => decodeFamily8 w
  | 0x9 => if digit4 w = 0 then .instr (.sneReg (digit2 w) (digit3 w)) else .unsupportedOpcode w
  | 0xA => .instr (.ldI (addrField w))
  | 0xB => .instr (.jpV0 (addrField w))
  | 0xC => .instr (.rnd (digit2 w) (byteField w))
  | 0xD => .instr (.drw (digit2 w) (digit3 w) (digit4 w))
  | 0xE => decodeFamilyE w
  | 0xF => decodeFamilyF w
  | _ => .unsupportedOpcode w

/-- Decoding bytes in the order of their addresses: the first two are the word (R45, R60); fewer than two are no word. -/
def decodeBytes : List Byte → Option Decoded
  | hi :: lo :: _ => some (decode (wordOfBytes hi lo))
  | _ => none

/-! ### The encoder (R62) -/

/-- A digit as the four bits of its field. -/
def digitBits (d : Digit) : BitVec 4 := BitVec.ofFin d

/-- Format `A`: op, `nnn`. -/
def formatA (op : Digit) (nnn : Addr12) : Word := digitBits op ++ nnn

/-- Format `XK`: op, `x`, `kk`; with a constant low byte it is format `XS`. -/
def formatXK (op x : Digit) (kk : Byte) : Word := digitBits op ++ digitBits x ++ kk

/-- Format `XYN`: op, `x`, `y`, `n`; with a constant low digit it is format `XY`. -/
def formatXYN (op x y n : Digit) : Word := digitBits op ++ digitBits x ++ digitBits y ++ digitBits n

/-- The word of an instruction (R62, R65). -/
def encode : Instr → Word
  | .nop => 0x0000#16
  | .cls => 0x00E0#16
  | .ret => 0x00EE#16
  | .jp nnn => formatA 0x1 nnn
  | .call nnn => formatA 0x2 nnn
  | .seByte x kk => formatXK 0x3 x kk
  | .sneByte x kk => formatXK 0x4 x kk
  | .seReg x y => formatXYN 0x5 x y 0x0
  | .ldByte x kk => formatXK 0x6 x kk
  | .addByte x kk => formatXK 0x7 x kk
  | .ldReg x y => formatXYN 0x8 x y 0x0
  | .orReg x y => formatXYN 0x8 x y 0x1
  | .andReg x y => formatXYN 0x8 x y 0x2
  | .xorReg x y => formatXYN 0x8 x y 0x3
  | .addReg x y => formatXYN 0x8 x y 0x4
  | .subReg x y => formatXYN 0x8 x y 0x5
  | .shr x y => formatXYN 0x8 x y 0x6
  | .subnReg x y => formatXYN 0x8 x y 0x7
  | .shl x y => formatXYN 0x8 x y 0xE
  | .sneReg x y => formatXYN 0x9 x y 0x0
  | .ldI nnn => formatA 0xA nnn
  | .jpV0 nnn => formatA 0xB nnn
  | .rnd x kk => formatXK 0xC x kk
  | .drw x y n => formatXYN 0xD x y n
  | .skp x => formatXK 0xE x 0x9E#8
  | .sknp x => formatXK 0xE x 0xA1#8
  | .ldVxDT x => formatXK 0xF x 0x07#8
  | .ldVxK x => formatXK 0xF x 0x0A#8
  | .ldDTVx x => formatXK 0xF x 0x15#8
  | .ldSTVx x => formatXK 0xF x 0x18#8
  | .addIVx x => formatXK 0xF x 0x1E#8
  | .ldFVx x => formatXK 0xF x 0x29#8
  | .ldBVx x => formatXK 0xF x 0x33#8
  | .ldMemVx x => formatXK 0xF x 0x55#8
  | .ldVxMem x => formatXK 0xF x 0x65#8

/-- An instruction's bytes in memory, most significant first (R60). -/
def encodeBytes (i : Instr) : List Byte := [highByte (encode i), lowByte (encode i)]

/-! ### The word the host's table numbers -/

/-- The 16 bits of an instruction given as the low `nbits` bits of a number, the bits above them zero. -/
def tableWord (nbits w : Nat) : Word := BitVec.ofNat 16 (w % 2 ^ nbits)

/-- The instruction the decoder reads from a word laid out in memory as the hardware stores it. -/
def decodeTableWord (nbits w : Nat) : Option Instr :=
  match decodeBytes [highByte (tableWord nbits w), lowByte (tableWord nbits w)] with
  | some (.instr i) => some i
  | some (.unsupportedOpcode _) => none
  | none => none

end Sys2Proof
end

