-- ==== Sys2Proof/Config.lean ====
section
/-!
DEFINITION. What is fixed for the hardware (spec/00_scope.md R5), and the values the spec leaves free (R6, R140).

The sizes of the register file, the stack, the framebuffer and the keypad are the types of the fields of
`Sys2Proof.Machine.State`. The parameters of R6 that the source does not fix (FONT, FETCH_LIMIT, RESET_PC, the write order
of decision D15) stand in Sys2Proof/Machine/Parameters.lean.
-/
namespace Sys2Proof

/-- `MEM_SIZE` (R5): 4096 bytes, addresses 0x000 to 0xFFF. -/
@[simp, reducible] def Config.memSize : Nat := 4096

/-- `STACK_DEPTH` (R5): 16 entries. -/
@[simp, reducible] def Config.stackDepth : Nat := 16

/-- `FONT_BYTES` (R5): 80 bytes at `FONT_BASE` = 0x000. -/
@[simp, reducible] def Config.fontBytes : Nat := 80

/-- `GLYPH_BYTES` (R5): 5 bytes per glyph. -/
@[simp, reducible] def Config.glyphBytes : Nat := 5

/-- `PROG_BASE` (R5): the program load address. -/
@[simp, reducible] def Config.progBase : Nat := 0x200

/-- `ROM_MAX` (R5): the largest program image, 4096 - 0x200 = 3584 bytes. -/
@[simp, reducible] def Config.romMax : Nat := 3584

/-- `NKEYS` (R5): 16 keys, and as many registers (`NREG`). -/
@[simp, reducible] def Config.indexLimit : Nat := 16

/-- FREE VALUE (log 1): `rand8()` of Cxkk (R140, D16), "a free 8-bit input of the step ... determined by no state of the
core". It has no body: nothing in Lean can evaluate it. It is applied to the count of free values taken so far
(`State.draws`), so that each execution takes a fresh one. -/
opaque Config.randomByte : Nat → Byte

/-- FREE VALUE (log 12): the final VF of 8xy4, 8xy5, 8xy6, 8xy7 and 8xyE with `x = 0xF` under the conservative treatment
`any value` of 93_implementation_defined.md U4. It has no body. It is used only when `Config.vfAsDestination` says so. -/
opaque Config.freeVF : Nat → Byte

/-- The two treatments of the final VF when a flag-writing instruction names VF as its destination (U4). -/
inductive Config.VfTreatment
  /-- The decided value: both writes happen, in the order the instruction's row lists them (R122, D15, C11). -/
  | rowOrder
  /-- The conservative treatment: the final VF is any value. -/
  | anyValue
  deriving DecidableEq, Repr

end Sys2Proof
end

