-- ==== Sys2Proof/Machine/Parameters.lean ====
section
/-!
DEFINITION. The parameters of spec/00_scope.md R6 that the source does not fix and the spec decides. They stand under
Machine/ because a test program could show one of them wrong.
-/
namespace Sys2Proof

/-- `FETCH_LIMIT` (R6, R81, decision D7, conflict C1): the lowest `pc` at which a fetch faults. UNVERIFIED, safe (log 6). -/
def Config.fetchLimit : Nat := 0xFFE

/-- `RESET_PC` (R6, R28, decision D4). UNVERIFIED, unsafe (log 4). -/
def Config.resetPc : Word := 0x200#16

/-- The switch of U4 for the final VF of 8xy4, 8xy5, 8xy6, 8xy7, 8xyE with `x = 0xF`: the value R122 decides.
UNVERIFIED, unsafe (log 12). -/
def Config.vfAsDestination : Config.VfTreatment := .rowOrder

/-- `FONT` (R6, R27, decision D6): sixteen glyphs of 5 bytes, glyph `d` at offset `5*d`; the customary table that R27
prints as the default. PRESUMED (general knowledge, K1), unsafe (log 2). -/
def Config.font : List Byte :=
  [0xF0, 0x90, 0x90, 0x90, 0xF0,  0x20, 0x60, 0x20, 0x20, 0x70,
   0xF0, 0x10, 0xF0, 0x80, 0xF0,  0xF0, 0x10, 0xF0, 0x10, 0xF0] ++
  [0x90, 0x90, 0xF0, 0x10, 0x10,  0xF0, 0x80, 0xF0, 0x10, 0xF0,
   0xF0, 0x80, 0xF0, 0x90, 0xF0,  0xF0, 0x10, 0x20, 0x40, 0x40] ++
  [0xF0, 0x90, 0xF0, 0x90, 0xF0,  0xF0, 0x90, 0xF0, 0x10, 0xF0,
   0xF0, 0x90, 0xF0, 0x90, 0x90,  0xE0, 0x90, 0xE0, 0x90, 0xE0] ++
  [0xF0, 0x80, 0x80, 0x80, 0xF0,  0xE0, 0x90, 0x90, 0x90, 0xE0,
   0xF0, 0x80, 0xF0, 0x80, 0xF0,  0xF0, 0x80, 0xF0, 0x80, 0x80]

end Sys2Proof
end

