-- ==== Sys2Proof/Machine/Memory.lean ====
section
/-!
DEFINITION. `MEM`, the one address space of 4096 bytes (spec/20_memory.md R40 to R50), as plain data.

A memory is the list of the cells that differ from their reset content, by rising address. An unlisted address reads as its
reset content (R28): FONT at 0x000 to 0x04F, zero above (log 5). Equal memories are equal lists.
-/
namespace Sys2Proof.Machine

/-- The cells that differ from their reset content, addresses strictly rising. -/
abbrev Memory := List Host.Cell

/-- What an unlisted address reads as: the reset content of R28, `FONT[a]` below 0x050 and 0x00 from there on (D5, D6). -/
def Memory.blank (a : Nat) : Byte := (Config.font[a]?).getD 0

/-- `MEM[a]` (R42): reading has no side effect. -/
def Memory.peek : Memory → Nat → Byte
  | [], a => Memory.blank a
  | (b, w) :: m, a => if a = b then w else Memory.peek m a

/-- Puts a cell at the front of the cells above it, unless it holds its reset content. -/
def Memory.cons (a : Nat) (v : Byte) (m : Memory) : Memory := if v = Memory.blank a then m else (a, v) :: m

/-- Writes one cell, keeping the canonical form. -/
def Memory.insert : Memory → Nat → Byte → Memory
  | [], a, v => Memory.cons a v []
  | (b, w) :: m, a, v =>
    if a < b then Memory.cons a v ((b, w) :: m)
    else if a = b then Memory.cons a v m
    else (b, w) :: Memory.insert m a v

/-- `MEM[a] <- v` for an address that exists; "the write changes that one byte and nothing else" (R43). An address above
0xFFF is no address of `MEM` (R40): the meanings check the range before they write, and here nothing is written (log 22). -/
def Memory.poke (m : Memory) (a : Nat) (v : Byte) : Memory := if a < Config.memSize then Memory.insert m a v else m

/-- Writes bytes at rising addresses from `base` (R46). -/
def Memory.pokeSpan (m : Memory) (base : Nat) : List Byte → Memory
  | [] => m
  | v :: vs => Memory.pokeSpan (Memory.poke m base v) (base + 1) vs

/-- The `count` bytes at `base`, `base + 1`, ... (R46). -/
def Memory.peekSpan (m : Memory) (base count : Nat) : List Byte := (List.range count).map fun k => m.peek (base + k)

/-- The canonical form: addresses strictly rising from `lo` on and below 4096, and no cell at its reset content. -/
def Memory.wfFrom : Nat → Memory → Bool
  | _, [] => true
  | lo, (a, v) :: m => lo ≤ a && a < Config.memSize && v != Memory.blank a && Memory.wfFrom (a + 1) m

/-- `Memory.wf`: the memory is in canonical form. -/
def Memory.wf (m : Memory) : Bool := Memory.wfFrom 0 m

end Sys2Proof.Machine
end

