-- ==== Sys2Proof/Machine/State.lean ====
section
/-!
DEFINITION. The state of the core (spec/10_state.md), plain data, and the state after reset (R28).
-/
namespace Sys2Proof.Machine

/-- The causes of the faults `step()` raises (R160). -/
inductive FaultCause
  /-- 1: fetch at `pc0 >= 0xFFE`, or a data access above 0xFFF (R161). -/
  | addressOutOfRange
  /-- 2: a word that is no instruction (R162). -/
  | unsupportedOpcode
  /-- 3: 2nnn with a full stack (R163). -/
  | stackOverflow
  /-- 4: 00EE with an empty stack (R164). -/
  | stackUnderflow
  /-- 5: Ex9E, ExA1 with `V[x] > 15` (R165). -/
  | indexOutOfRange
  deriving DecidableEq, Repr

/-- The cause numbers of R160 (decision D11: no rule computes with them). -/
def FaultCause.code : FaultCause → Nat
  | .addressOutOfRange => 1
  | .unsupportedOpcode => 2
  | .stackOverflow => 3
  | .stackUnderflow => 4
  | .indexOutOfRange => 5

/-- A fault record `(cause, pc0, word, info)` (R160). -/
structure FaultRecord where
  cause : FaultCause
  /-- The address of the faulting instruction. -/
  pc0 : Word
  /-- The instruction word, absent for a fetch fault. -/
  word : Option Word
  /-- The lowest offending address, the word, `SP` or the offending index, by cause. -/
  info : Nat
  deriving DecidableEq, Repr

/-- The framebuffer's rows from top to bottom, each its pixels from left to right: 64 columns by 32 rows, on or off (R22). -/
abbrev Framebuffer := Vector (Vector Bool 64) 32

/-- All pixels off. -/
def Framebuffer.clear : Framebuffer := Vector.replicate 32 (Vector.replicate 64 false)

/-- Everything the spec gives the machine (10_state.md; "the whole of Machine State", R29, R31), and `draws`, the model's own. -/
structure State where
  /-- `V[0]` to `V[15]` (R10); `V[15]` is VF (R11). -/
  v : Vector Byte 16
  /-- The program counter (R13). -/
  pc : Word
  /-- The index register `I` (R21). -/
  index : Word
  /-- `SP`, the number of occupied stack entries, 0 to 16 inclusive (R18). -/
  sp : Fin 17
  /-- `STACK[0]` to `STACK[15]` (R18). -/
  stack : Vector Word 16
  /-- `MEM` (R30, R40). -/
  mem : Memory
  /-- `FB` (R22). -/
  fb : Framebuffer
  /-- `KEY[0]` to `KEY[15]`, true when pressed (R23). -/
  keys : Vector Bool 16
  /-- The delay timer `DT` (R24). -/
  dt : Byte
  /-- The sound timer `ST` (R24). -/
  st : Byte
  /-- The fault latch `HALT` (R25). -/
  halt : Option FaultRecord
  /-- THE MODEL'S OWN: how many free values have been taken (log 1). -/
  draws : Nat
  deriving DecidableEq, Repr

/-- The reasons a step could stop with `Outcome.fault`: none. Every fault the spec describes is a transition of the machine,
the latching of `HALT` (R84, R86, R169), so a step answers a next state (log 8: safe). -/
inductive Fault
  deriving DecidableEq, Repr

/-- The reasons a step could be refused. -/
inductive Refusal
  /-- Raised by an arm of `exec` for an instruction that has no meaning yet. Safe: nothing can be proved of such a step. No
  arm raises it: all 35 instructions have their meaning. -/
  | notModelled (mnemonic : String)
  deriving DecidableEq, Repr

/-- What a meaning or a step answers. -/
abbrev Result := Host.Outcome State Fault Refusal

/-- The state after construction and after every `reset()` (R28, R190, R191): no row depends on the state before (R196).
Memory lists nothing: `MEM[0x000..0x04F] = FONT`, the rest zero. The source states the font and the cleared framebuffer;
the other rows are decisions D3, D4, D5, D10 (logs 3, 4, 5, 8), `draws` is log 1. -/
def State.reset : State where
  v := Vector.replicate 16 0
  pc := Config.resetPc
  index := 0
  sp := 0
  stack := Vector.replicate 16 0
  mem := []
  fb := Framebuffer.clear
  keys := Vector.replicate 16 false
  dt := 0
  st := 0
  halt := none
  draws := 0

end Sys2Proof.Machine
end

