-- ==== Sys2Proof/Machine/Ops.lean ====
section
/-!
DEFINITION. The named operations on the state: registers, program counter, stack, memory, framebuffer, keypad (spec/10_state.md,
spec/20_memory.md), taking a fault (R84, R169), and the fetch (R81).
-/
namespace Sys2Proof.Machine

/-! ### General registers (R10) -/

/-- `V[x]`. -/
def State.getV (s : State) (x : Reg) : Byte := s.v[x]

/-- `V[x] <- b`. -/
def State.setV (s : State) (x : Reg) (b : Byte) : State := { s with v := s.v.set x b }

/-! ### Program counter (R13, R14) -/

/-- `npc = pc0 + 2`, the address of the following instruction (R81). -/
def State.npc (s : State) : Word := s.pc + 2

/-- `pc <- target`; nothing is checked when `pc` is written (R15). -/
def State.setPc (s : State) (target : Word) : State := { s with pc := target }

/-- The step's default `pc <- npc` (R83). -/
def State.advance (s : State) : State := s.setPc s.npc

/-- The skip rule (R104): `pc <- npc + 2` when the condition holds, else `pc <- npc`. -/
def State.skipIf (s : State) (condition : Bool) : State := if condition then s.setPc (s.npc + 2) else s.advance

/-! ### Taking a fault (R84, R160, R169)
There is no return from a fault: no instruction resumes after one (R171). -/

/-- `HALT <- (cause, pc0, word, info)`, "with every other piece of state as it was before the step" (R169). -/
def State.latch (s : State) (cause : FaultCause) (word : Option Word) (info : Nat) : State :=
  { s with halt := some { cause := cause, pc0 := s.pc, word := word, info := info } }

/-- `raise` in an instruction's rule: the step commits nothing but the latch (R84). The recorded word is the instruction's
own (R160). -/
def State.raise (s : State) (i : Instr) (cause : FaultCause) (info : Nat) : Result :=
  .next (s.latch cause (some (encode i)) info)

/-! ### Special registers and the framebuffer, written whole (R21, R22, R24, R29) -/

/-- `I <- a` (R21). -/
def State.setIndex (s : State) (a : Word) : State := { s with index := a }

/-- `DT <- b` (R24). -/
def State.setDT (s : State) (b : Byte) : State := { s with dt := b }

/-- `ST <- b` (R24). -/
def State.setST (s : State) (b : Byte) : State := { s with st := b }

/-- `FB`, all of it (R22). -/
def State.setFB (s : State) (fb : Framebuffer) : State := { s with fb := fb }

/-! ### Stack (R18, R19, R20) -/

/-- `SP` and `STACK`, written together (R18). -/
def State.setStack (s : State) (sp : Fin 17) (stack : Vector Word 16) : State := { s with sp := sp, stack := stack }

/-- `Push(v)` on a stack with fewer than 16 entries: `STACK[SP] <- v; SP <- SP + 1`; none when `SP = 16` (R19). -/
def State.push? (s : State) (value : Word) : Option State :=
  if h : s.sp.val < 16 then some (s.setStack ⟨s.sp.val + 1, by omega⟩ (s.stack.set s.sp.val value)) else none

/-- `Pop()` on a stack that is not empty: `SP <- SP - 1; return STACK[SP]`; none when `SP = 0` (R20). -/
def State.pop? (s : State) : Option (Word × State) :=
  if h : 0 < s.sp.val then some (s.stack[s.sp.val - 1], s.setStack ⟨s.sp.val - 1, by omega⟩ s.stack) else none

/-! ### Memory (R42 to R44) -/

/-- `MEM[a]`. -/
def State.peek (s : State) (a : Nat) : Byte := s.mem.peek a

/-- The check made before an instruction accesses the `count` bytes from `I` on (R44): the lowest offending address
`max(I, 0x1000)` when the highest exceeds 0xFFF. The sum is in unbounded integers: it neither wraps nor is masked. "An
instruction that makes no access (Dxyn with n = 0) makes no check." -/
def State.offending (s : State) (count : Nat) : Option Nat :=
  if 0 < count ∧ s.index.toNat + (count - 1) > 0xFFF then some (max s.index.toNat 0x1000) else none

/-- Stores bytes at `I`, `I + 1`, ... (R46); the range has been checked. -/
def State.store (s : State) (bytes : List Byte) : State := { s with mem := s.mem.pokeSpan s.index.toNat bytes }

/-- The `count` bytes at `I`, `I + 1`, ... (R46). -/
def State.fetchBytes (s : State) (count : Nat) : List Byte := s.mem.peekSpan s.index.toNat count

/-! ### Framebuffer (R22) -/

/-- `FB[x, y]`, column x, row y. -/
def Framebuffer.pixel (fb : Framebuffer) (x : Fin 64) (y : Fin 32) : Bool := fb[y][x]

/-- `FB[x, y] <- FB[x, y] ^ 1`. -/
def Framebuffer.flip (fb : Framebuffer) (x : Fin 64) (y : Fin 32) : Framebuffer := fb.set y (fb[y].set x (!fb[y][x]))

/-! ### Keypad (R23) -/

/-- `KEY[k]`. -/
def State.key (s : State) (k : Fin 16) : Bool := s.keys[k]

/-- The least `k` with `KEY[k] = 1` (R144: "scan keypad 0..16 in ascending order; on first pressed key"). -/
def State.firstKey (s : State) : Option (Fin 16) := (List.finRange 16).find? s.key

/-! ### Free values (log 1) -/

/-- `rand8()` (R140): the free value of this execution. -/
def State.rand8 (s : State) : Byte := Config.randomByte s.draws

/-- The next free value will be another one. -/
def State.drawn (s : State) : State := { s with draws := s.draws + 1 }

/-! ### Fetch (R81) -/

/-- `word <- MEM[pc0] * 256 + MEM[pc0 + 1]`, big-endian (R45), any alignment (R47). -/
def State.fetchWord (s : State) : Word := wordOfBytes (s.peek s.pc.toNat) (s.peek (s.pc.toNat + 1))

/-- The fetch bound: `pc0 >= FETCH_LIMIT` (R81). -/
def State.fetchFaults (s : State) : Bool := Config.fetchLimit ≤ s.pc.toNat

end Sys2Proof.Machine
end

