-- ==== Sys2Proof/Machine/Flags.lean ====
section
/-!
DEFINITION. The flag values of VF (spec/10_state.md R11, R17; spec/43_load_alu.md R121) and the order of the two writes of an
instruction that writes a result and the flag (R122).
-/
namespace Sys2Proof.Machine

/-- A flag as the core writes it: "always exactly 0x00 or 0x01" (R11). -/
def flagByte (b : Bool) : Byte := if b then 0x01#8 else 0x00#8

/-- 8xy4: the unsigned sum exceeds 255 (R116). -/
def carry (a b : Byte) : Bool := a.toNat + b.toNat > 255

/-- 8xy5 and 8xy7: NOT borrow, the minuend is at least the subtrahend (R117, R119, R121). -/
def notBorrow (minuend subtrahend : Byte) : Bool := subtrahend.toNat ≤ minuend.toNat

/-- 8xy6: bit 0, shifted out to the right (R118). -/
def shiftedOutRight (a : Byte) : Bool := a.getLsbD 0

/-- 8xyE: bit 7, shifted out to the left (R120). -/
def shiftedOutLeft (a : Byte) : Bool := a.getLsbD 7

/-- The switch of 93_implementation_defined.md U4 for the final VF when `x = 0xF`: the decided value stands, or it is any
value. Under `Config.vfAsDestination = .rowOrder` this is the state itself. -/
def State.settleVF (s : State) (x : Reg) : State :=
  match Config.vfAsDestination with
  | .rowOrder => s
  | .anyValue => if x = Reg.vf then (s.setV Reg.vf (Config.freeVF s.draws)).drawn else s

/-- The rows "Vx = ...; VF = ..." (8xy4, 8xy5, 8xy7): the result, then the flag (R122). -/
def State.resultThenFlag (s : State) (x : Reg) (result : Byte) (flag : Bool) : State :=
  ((s.setV x result).setV Reg.vf (flagByte flag)).settleVF x

/-- The rows "VF = ...; Vx = ..." (8xy6, 8xyE): the flag, then the result (R122). -/
def State.flagThenResult (s : State) (x : Reg) (result : Byte) (flag : Bool) : State :=
  ((s.setV Reg.vf (flagByte flag)).setV x result).settleVF x

end Sys2Proof.Machine
end

