-- ==== Sys2Proof/Machine/Operands.lean ====
section
/-!
DEFINITION. The operand forms (spec/30_encoding.md R63): immediates are zero-extended, registers are read whole, and the values
that instructions lay out in memory or draw (spec/20_memory.md R46).
-/
namespace Sys2Proof.Machine

/-- `zext_16(nnn)`: an address immediate as a 16-bit value (R63). -/
def addrOperand (nnn : Addr12) : Word := nnn.setWidth 16

/-- `zext_16(V[x])`: a register as a 16-bit value (R94, R131, R132). -/
def byteOperand (b : Byte) : Word := b.setWidth 16

/-- The three decimal digits of a byte, hundreds first: exact integer division by 100 and 10 (R121, R133). -/
def bcdDigits (b : Byte) : List Byte :=
  [BitVec.ofNat 8 (b.toNat / 100), BitVec.ofNat 8 (b.toNat / 10 % 10), BitVec.ofNat 8 (b.toNat % 10)]

/-- `V[0]` to `V[x]` inclusive, in the order they lie in memory (R46, R134). -/
def State.registersUpTo (s : State) (x : Reg) : List Byte := (s.v.toList).take (x.val + 1)

/-- `V[k] <- MEM[I + k]` for k from 0 to x; registers above x keep their values (R135). -/
def State.loadRegisters (s : State) (x : Reg) : State :=
  { s with v := Vector.ofFn fun k => if k.val ≤ x.val then s.peek (s.index.toNat + k.val) else s.v[k] }

/-- The key a keypad skip names: `V[x]` when it is 0 to 15, else none (R147). -/
def State.keyOperand (s : State) (x : Reg) : Option (Fin 16) :=
  if h : (s.getV x).toNat < 16 then some ⟨(s.getV x).toNat, h⟩ else none

end Sys2Proof.Machine
end

