-- ==== Sys2Proof/Machine/Alu.lean ====
section
/-!
DEFINITION. Register load and ALU instructions (spec/43_load_alu.md R110 to R122): unsigned 8-bit, modulo 256, operands read
before any write (R122). Each leaves `pc` at `npc`.
-/
namespace Sys2Proof.Machine

/-- `LD Vx, kk` (R110). -/
def execLdByte (x : Reg) (kk : Byte) (s : State) : Result := .next (s.setV x kk).advance

/-- `ADD Vx, kk` (R111): no flag. -/
def execAddByte (x : Reg) (kk : Byte) (s : State) : Result := .next (s.setV x (s.getV x + kk)).advance

/-- `LD Vx, Vy` (R112). -/
def execLdReg (x y : Reg) (s : State) : Result := .next (s.setV x (s.getV y)).advance

/-- `OR Vx, Vy` (R113): VF not written. -/
def execOrReg (x y : Reg) (s : State) : Result := .next (s.setV x (s.getV x ||| s.getV y)).advance

/-- `AND Vx, Vy` (R114): VF not written. -/
def execAndReg (x y : Reg) (s : State) : Result := .next (s.setV x (s.getV x &&& s.getV y)).advance

/-- `XOR Vx, Vy` (R115): VF not written. -/
def execXorReg (x y : Reg) (s : State) : Result := .next (s.setV x (s.getV x ^^^ s.getV y)).advance

/-- `ADD Vx, Vy` (R116): the sum modulo 256, then the carry. -/
def execAddReg (x y : Reg) (s : State) : Result :=
  .next (s.resultThenFlag x (s.getV x + s.getV y) (carry (s.getV x) (s.getV y))).advance

/-- `SUB Vx, Vy` (R117): the difference modulo 256, then NOT borrow. -/
def execSubReg (x y : Reg) (s : State) : Result :=
  .next (s.resultThenFlag x (s.getV x - s.getV y) (notBorrow (s.getV x) (s.getV y))).advance

/-- `SHR Vx` (R118): bit 0, then the shifted value; `V[y]` is not read. -/
def execShr (x _y : Reg) (s : State) : Result :=
  .next (s.flagThenResult x (s.getV x >>> 1) (shiftedOutRight (s.getV x))).advance

/-- `SUBN Vx, Vy` (R119): the reverse difference modulo 256, then NOT borrow. -/
def execSubnReg (x y : Reg) (s : State) : Result :=
  .next (s.resultThenFlag x (s.getV y - s.getV x) (notBorrow (s.getV y) (s.getV x))).advance

/-- `SHL Vx` (R120): bit 7, then the shifted value; `V[y]` is not read. -/
def execShl (x _y : Reg) (s : State) : Result :=
  .next (s.flagThenResult x (s.getV x <<< 1) (shiftedOutLeft (s.getV x))).advance

end Sys2Proof.Machine
end

