-- ==== Sys2Proof/Machine/Control.lean ====
section
/-!
DEFINITION. Control-flow instructions (spec/41_control_flow.md R90 to R94) and the register-compare skips (spec/42_skips.md
R100 to R104).
-/
namespace Sys2Proof.Machine

/-- `NOP` (R90): `pc <- npc`. -/
def execNop (s : State) : Result := .next s.advance

/-- `RET` (R91): `pc <- Pop()`, or `StackUnderflow(0)` when `SP = 0`. The popped value is not checked. -/
def execRet (s : State) : Result :=
  match s.pop? with
  | none => s.raise .ret .stackUnderflow s.sp.val
  | some (target, s') => .next (s'.setPc target)

/-- `JP nnn` (R92): the target is not checked for range or alignment. -/
def execJp (nnn : Addr12) (s : State) : Result := .next (s.setPc (addrOperand nnn))

/-- `CALL nnn` (R93): `Push(npc); pc <- nnn`, or `StackOverflow(16)` when `SP = 16`. -/
def execCall (nnn : Addr12) (s : State) : Result :=
  match s.push? s.npc with
  | none => s.raise (.call nnn) .stackOverflow s.sp.val
  | some s' => .next (s'.setPc (addrOperand nnn))

/-- `JP V0, nnn` (R94): the register is always V0; the sum is not masked. -/
def execJpV0 (nnn : Addr12) (s : State) : Result := .next (s.setPc (addrOperand nnn + byteOperand (s.getV Reg.v0)))

/-- `SE Vx, kk` (R100). -/
def execSeByte (x : Reg) (kk : Byte) (s : State) : Result := .next (s.skipIf (s.getV x == kk))

/-- `SNE Vx, kk` (R101). -/
def execSneByte (x : Reg) (kk : Byte) (s : State) : Result := .next (s.skipIf (s.getV x != kk))

/-- `SE Vx, Vy` (R102). -/
def execSeReg (x y : Reg) (s : State) : Result := .next (s.skipIf (s.getV x == s.getV y))

/-- `SNE Vx, Vy` (R103). -/
def execSneReg (x y : Reg) (s : State) : Result := .next (s.skipIf (s.getV x != s.getV y))

end Sys2Proof.Machine
end

