-- ==== Sys2Proof/Machine/Devices.lean ====
section
/-!
DEFINITION. Random, keypad and timer instructions (spec/45_random_keypad_timers.md R140 to R147).
-/
namespace Sys2Proof.Machine

/-- `RND Vx, kk` (R140): a fresh free byte under the mask. -/
def execRnd (x : Reg) (kk : Byte) (s : State) : Result := .next (s.setV x (s.rand8 &&& kk)).drawn.advance

/-- `SKP Vx` (R141): `IndexOutOfRange(V[x])` when there is no such key (R147). -/
def execSkp (x : Reg) (s : State) : Result :=
  match s.keyOperand x with
  | none => s.raise (.skp x) .indexOutOfRange (s.getV x).toNat
  | some k => .next (s.skipIf (s.key k))

/-- `SKNP Vx` (R142): `IndexOutOfRange(V[x])` when there is no such key (R147). -/
def execSknp (x : Reg) (s : State) : Result :=
  match s.keyOperand x with
  | none => s.raise (.sknp x) .indexOutOfRange (s.getV x).toNat
  | some k => .next (s.skipIf (!s.key k))

/-- `LD Vx, DT` (R143). -/
def execLdVxDT (x : Reg) (s : State) : Result := .next (s.setV x s.dt).advance

/-- `LD Vx, K` (R144): the least pressed key, or `pc <- npc - 2` so that the same instruction is fetched again. -/
def execLdVxK (x : Reg) (s : State) : Result :=
  match s.firstKey with
  | some k => .next (s.setV x (BitVec.ofNat 8 k.val)).advance
  | none => .next (s.setPc (s.npc - 2))

/-- `LD DT, Vx` (R145). -/
def execLdDTVx (x : Reg) (s : State) : Result := .next (s.setDT (s.getV x)).advance

/-- `LD ST, Vx` (R146): the core does nothing else. -/
def execLdSTVx (x : Reg) (s : State) : Result := .next (s.setST (s.getV x)).advance

end Sys2Proof.Machine
end

