-- ==== Sys2Proof/Machine/Display.lean ====
section
/-!
DEFINITION. Display instructions (spec/46_display.md R150 to R154): clear, and the sprite draw with its collision detector, in
the order of R151's pseudocode.
-/
namespace Sys2Proof.Machine

/-- `n mod 64`, a column of the screen: "screen coordinates wrap, they never clip" (R151). -/
def screenColumn (n : Nat) : Fin 64 := ⟨n % 64, Nat.mod_lt n (by decide)⟩

/-- `n mod 32`, a row of the screen (R151). -/
def screenRow (n : Nat) : Fin 32 := ⟨n % 32, Nat.mod_lt n (by decide)⟩

/-- A framebuffer in the course of a draw, and whether a collision has been recorded. -/
abbrev Canvas := Framebuffer × Bool

/-- One touched pixel (R151): "XOR that framebuffer bit. If the pre-XOR pixel ... was already on, record a collision." -/
def Canvas.touch (c : Canvas) (px : Fin 64) (py : Fin 32) : Canvas := (c.1.flip px py, c.2 || c.1.pixel px py)

/-- One sprite row (R151): for each set bit `b[7 - col]`, the pixel in column `(vx + col) mod 64` of row `py`. -/
def Canvas.drawRow (c : Canvas) (vx : Nat) (py : Fin 32) (b : Byte) : Canvas :=
  (List.range 8).foldl (fun c col => if b.getLsbD (7 - col) then c.touch (screenColumn (vx + col)) py else c) c

/-- The sprite's rows from the top (R151): row `row` lies in row `(vy + row) mod 32` of the screen. -/
def Canvas.drawRows (c : Canvas) (vx vy : Nat) : List Byte → Canvas
  | [] => c
  | b :: bs => Canvas.drawRows (c.drawRow vx (screenRow vy) b) vx (vy + 1) bs

/-- `CLS` (R150): VF is not written. -/
def execCls (s : State) : Result := .next (s.setFB Framebuffer.clear).advance

/-- `DRW Vx, Vy, n` (R151): the coordinates are read before VF is written; VF is always written. -/
def execDrw (x y : Reg) (n : Digit) (s : State) : Result :=
  match s.offending n.val with
  | some a => s.raise (.drw x y n) .addressOutOfRange a
  | none =>
    let drawn := Canvas.drawRows (s.fb, false) (s.getV x).toNat (s.getV y).toNat (s.fetchBytes n.val)
    .next ((s.setFB drawn.1).setV Reg.vf (flagByte drawn.2)).advance

end Sys2Proof.Machine
end

