-- ==== Sys2Proof/Machine/IndexMemory.lean ====
section
/-!
DEFINITION. Index register and memory instructions (spec/44_index_memory.md R130 to R136). Every range is checked before any
state changes (R44); no access changes `I` (R136).
-/
namespace Sys2Proof.Machine

/-- `LD I, nnn` (R130). -/
def execLdI (nnn : Addr12) (s : State) : Result := .next (s.setIndex (addrOperand nnn)).advance

/-- `ADD I, Vx` (R131): modulo 65536, no flag, no range check. -/
def execAddIVx (x : Reg) (s : State) : Result := .next (s.setIndex (s.index + byteOperand (s.getV x))).advance

/-- `LD F, Vx` (R132): `I <- V[x] * 5`, all of `V[x]`, no memory access. -/
def execLdFVx (x : Reg) (s : State) : Result :=
  .next (s.setIndex (byteOperand (s.getV x) * BitVec.ofNat 16 Config.glyphBytes)).advance

/-- `LD B, Vx` (R133): hundreds, tens and ones at `I`, `I + 1`, `I + 2`. -/
def execLdBVx (x : Reg) (s : State) : Result :=
  match s.offending 3 with
  | some a => s.raise (.ldBVx x) .addressOutOfRange a
  | none => .next (s.store (bcdDigits (s.getV x))).advance

/-- `LD [I], Vx` (R134): `V[0]` to `V[x]` at `I` to `I + x`. -/
def execLdMemVx (x : Reg) (s : State) : Result :=
  match s.offending (x.val + 1) with
  | some a => s.raise (.ldMemVx x) .addressOutOfRange a
  | none => .next (s.store (s.registersUpTo x)).advance

/-- `LD Vx, [I]` (R135): `V[0]` to `V[x]` from `I` to `I + x`. -/
def execLdVxMem (x : Reg) (s : State) : Result :=
  match s.offending (x.val + 1) with
  | some a => s.raise (.ldVxMem x) .addressOutOfRange a
  | none => .next (s.loadRegisters x).advance

end Sys2Proof.Machine
end

