-- ==== Sys2Proof/Machine/Step.lean ====
section
/-!
DEFINITION. The step cycle (spec/40_step_cycle.md R80 to R86), and placing an instruction where the next step fetches it.
-/
namespace Sys2Proof.Machine

/-- `step()` (R86), with the checks in the order of R85: the halted check, the fetch bound, decode, the instruction's own. -/
def step (s : State) : Host.Outcome State Fault Refusal :=
  match s.halt with
  | some _ => .next s
  | none =>
    if s.fetchFaults then .next (s.latch .addressOutOfRange none s.pc.toNat)
    else match decode s.fetchWord with
      | .instr i => exec i s
      | .unsupportedOpcode w => .next (s.latch .unsupportedOpcode (some w) w.toNat)

/-- `s` with the instruction of the low `nbits` bits of `w` stored where `step` fetches next, most significant byte first.
A fetch needs a core that is not halted and a `pc` below the fetch limit: where `s` has neither, HALT is cleared and `pc` is
the reset `pc` (log 19). Nothing else changes. -/
def State.withFetchWord (s : State) (nbits w : Nat) : State :=
  let at_ : Word := if s.fetchFaults then Config.resetPc else s.pc
  { s with
    pc := at_
    halt := none
    mem := s.mem.pokeSpan at_.toNat [highByte (tableWord nbits w), lowByte (tableWord nbits w)] }

end Sys2Proof.Machine
end

