-- ==== Sys2Proof/Machine/Events.lean ====
section
/-!
DEFINITION. The host as an agent (spec/60_exceptions.md R175 to R184, spec/70_reset_and_hazards.md R190 to R196): its events on the
core, each atomic and only between steps (spec/20_memory.md R51). The order and number of the events are free (R176): a run
is any list of them.
-/
namespace Sys2Proof.Machine

/-- The errors of the host's calls: the call is refused and nothing changes; none touches `HALT` (R160, R165, R167). -/
inductive HostError
  /-- 5: `set_key`, `get_register` or `set_register` with an index above 15 (R165, R178, R183). -/
  | indexOutOfRange (index : Nat)
  /-- 6: `load` of more than 3584 bytes (R167, R192). -/
  | romTooLarge (length : Nat)
  deriving DecidableEq, Repr

/-- The cause numbers of R160. -/
def HostError.code : HostError → Nat
  | .indexOutOfRange _ => 5
  | .romTooLarge _ => 6

/-- `reset()` (R190): every piece of state at its reset value, whatever the state before (R196); a loaded program is discarded
(C4). The count of free values goes on, for the random source is no state of the core (R26, log 18). -/
def State.hostReset (s : State) : State := { State.reset with draws := s.draws }

/-- `load(bytes)` (R192): `MEM[0x200 + k] <- bytes[k]` and nothing else, or `RomTooLarge` and no byte changes. -/
def State.load (s : State) (bytes : List Byte) : Except HostError State :=
  if bytes.length > Config.romMax then .error (.romTooLarge bytes.length)
  else .ok { s with mem := s.mem.pokeSpan Config.progBase bytes }

/-- A timer's tick (R177): one less unless it is zero; it never wraps. -/
def tickTimer (t : Byte) : Byte := if t = 0 then t else t - 1

/-- `tick_timers()` (R177): both timers, nothing else. -/
def State.tickTimers (s : State) : State := { s with dt := tickTimer s.dt, st := tickTimer s.st }

/-- `set_key(index, pressed)` (R178). -/
def State.setKey (s : State) (index : Nat) (pressed : Bool) : Except HostError State :=
  if h : index < Config.indexLimit then .ok { s with keys := s.keys.set index pressed } else .error (.indexOutOfRange index)

/-- `framebuffer()` (R180): the value of `FB[x, y]` for every x and y. -/
def State.framebuffer (s : State) : Framebuffer := s.fb

/-- `sound_active = (ST != 0)` (R181, D20). -/
def State.soundActive (s : State) : Bool := s.st != 0

/-- `get_register(i)` (R183). -/
def State.getRegister (s : State) (i : Nat) : Except HostError Byte :=
  if h : i < Config.indexLimit then .ok (s.getV ⟨i, h⟩) else .error (.indexOutOfRange i)

/-- `set_register(i, v)` (R183). -/
def State.setRegister (s : State) (i : Nat) (value : Byte) : Except HostError State :=
  if h : i < Config.indexLimit then .ok (s.setV ⟨i, h⟩ value) else .error (.indexOutOfRange i)

/-- Every interaction between host and core (R184). To stop calling `step()` is no event. -/
inductive Event
  | reset
  | load (bytes : List Byte)
  | step
  | tickTimers
  | setKey (index : Nat) (pressed : Bool)
  | framebuffer
  | readSound
  | getRegister (i : Nat)
  | setRegister (i : Nat) (value : Byte)
  deriving DecidableEq, Repr

/-- What the host gets back from an event. -/
inductive Reply
  /-- The call returned nothing. -/
  | done
  /-- `step()` reports this fault record: the fault it raised, or the latched one of a halted core (R169, R170). -/
  | faulted (r : FaultRecord)
  /-- The call was refused and changed nothing. -/
  | refused (e : HostError)
  | pixels (fb : Framebuffer)
  | sound (st : Byte) (active : Bool)
  | register (value : Byte)
  /-- `step()` had no meaning for the instruction; every instruction has one, so no event answers this. -/
  | noMeaning (r : Refusal)
  deriving DecidableEq, Repr

/-- The report of `step()` (R169, R179): the fault record when the core is halted after it, else nothing. -/
def stepReport (s : State) : Reply :=
  match s.halt with
  | some r => .faulted r
  | none => .done

/-- A call that changes the state or is refused. -/
def settle (s : State) : Except HostError State → State × Reply
  | .ok t => (t, .done)
  | .error e => (s, .refused e)

/-- One event: the state after it and the reply to the host (R184). Host events act normally on a halted core, and only
`reset()` clears `HALT` (R170). -/
def handle (e : Event) (s : State) : State × Reply :=
  match e with
  | .reset => (s.hostReset, .done)
  | .load bytes => settle s (s.load bytes)
  | .step =>
    match step s with
    | .next t => (t, stepReport t)
    | .fault r => nomatch r
    | .refused r => (s, .noMeaning r)
  | .tickTimers => (s.tickTimers, .done)
  | .setKey index pressed => settle s (s.setKey index pressed)
  | .framebuffer => (s, .pixels s.framebuffer)
  | .readSound => (s, .sound s.st s.soundActive)
  | .getRegister i =>
    match s.getRegister i with
    | .ok b => (s, .register b)
    | .error e => (s, .refused e)
  | .setRegister i value => settle s (s.setRegister i value)

/-- A run: "a run is exactly a sequence of host calls" (R175). -/
def runEvents (es : List Event) (s : State) : State := es.foldl (fun s e => (handle e s).1) s

/-- Boot (R193): `reset()`, then one `load` of this image. -/
def boot (image : List Byte) : List Event := [.reset, .load image]

end Sys2Proof.Machine
end

