-- ==== Sys2Proof/Safety.lean ====
section
/-!
DEFINITION. What counts as a safe run, the invariant of the machine, and what an instruction may change, in the terms the statements
use (spec/60_exceptions.md R170, R184, spec/70_reset_and_hazards.md R195, R198, spec/10_state.md R12, R16).
-/
namespace Sys2Proof.Machine

/-! ### Running, halted, ended -/

/-- The core is not halted: `HALT = none` (R25). "A halted state is never a final (successful) state of a run" (R170). -/
def State.running (s : State) : Bool := s.halt.isNone

/-- The core can fetch: it is not halted and `pc` is below the fetch limit (R81, R85). -/
def State.fetches (s : State) : Bool := s.running && !s.fetchFaults

/-- A program's end state (R195): `pc` holds the address of a `JP` to itself. A convention of the spec (decision D29). -/
def State.atEnd (s : State) : Bool :=
  match decode s.fetchWord with
  | .instr (.jp nnn) => s.fetches && addrOperand nnn == s.pc
  | _ => false

/-- The events a claim about a running program allows at any point (R184): all but `reset`, `load` and `set_register`, which are
"assumed never during a run". -/
def Event.duringRun : Event → Bool
  | .reset | .load _ | .setRegister _ _ => false
  | .step | .tickTimers | .setKey _ _ | .framebuffer | .readSound | .getRegister _ => true

/-- A safe run: the host does nothing that is assumed never, and no fault is raised (R170, R184). -/
def safeRun (es : List Event) (s : State) : Bool := es.all Event.duringRun && (runEvents es s).running

/-- The duties of R198 (c), (e) and (f) that an instruction's own check enforces: what must hold of the state for it not to fault. -/
def State.dutiesMet (s : State) : Instr → Bool
  | .call _ => s.sp.val < 16
  | .ret => 0 < s.sp.val
  | .ldBVx _ => s.index.toNat + 2 ≤ 0xFFF
  | .ldMemVx x | .ldVxMem x => s.index.toNat + x.val ≤ 0xFFF
  | .drw _ _ n => n.val = 0 || s.index.toNat + (n.val - 1) ≤ 0xFFF
  | .skp x | .sknp x => (s.getV x).toNat ≤ 15
  | .nop | .cls | .jp _ | .jpV0 _ | .seByte _ _ | .sneByte _ _ | .seReg _ _ | .sneReg _ _ | .ldByte _ _ | .addByte _ _
  | .ldReg _ _ | .orReg _ _ | .andReg _ _ | .xorReg _ _ | .addReg _ _ | .subReg _ _ | .shr _ _ | .subnReg _ _ | .shl _ _
  | .ldI _ | .rnd _ _ | .ldVxDT _ | .ldVxK _ | .ldDTVx _ | .ldSTVx _ | .addIVx _ | .ldFVx _ => true

/-! ### The invariant of the machine -/

/-- What holds at reset and is kept by every event: memory is canonical; `pc` is at most 0x10FE, so that it "never wraps around at
2^16"; an occupied stack entry is a former `npc`, at most 0xFFF (R16). -/
structure State.Inv (s : State) : Prop where
  memory : s.mem.wf = true
  pc : s.pc.toNat ≤ 0x10FE
  stack : ∀ k : Fin 16, k.val < s.sp.val → s.stack[k].toNat ≤ 0xFFF

/-! ### What an instruction may change (R12, R17, R18, R21, R22, R24, R43) -/

/-- The parts of the state an instruction writes when it does not fault. `pc` and, on a fault, `HALT` are not listed: every step
writes `pc` (R13). -/
structure Footprint where
  /-- The general registers it writes. -/
  regs : List Reg := []
  /-- It writes `I`. -/
  index : Bool := false
  /-- It writes `SP` and `STACK`. -/
  stack : Bool := false
  /-- How many bytes of memory it stores, from address `I` on. -/
  stores : Nat := 0
  /-- It writes the framebuffer. -/
  screen : Bool := false
  /-- It writes `DT`. -/
  dt : Bool := false
  /-- It writes `ST`. -/
  st : Bool := false
  /-- It takes a free value (the model's `draws`). -/
  draws : Bool := false

/-- The parts each instruction writes, from the rows "write" of R12 and R17, and from R18, R21, R22, R24, R43, R49. -/
def footprint : Instr → Footprint
  | .nop | .jp _ | .jpV0 _ | .seByte _ _ | .sneByte _ _ | .seReg _ _ | .sneReg _ _ | .skp _ | .sknp _ => {}
  | .cls => { screen := true }
  | .ret | .call _ => { stack := true }
  | .ldByte x _ | .addByte x _ | .ldReg x _ | .orReg x _ | .andReg x _ | .xorReg x _ | .ldVxDT x | .ldVxK x => { regs := [x] }
  | .addReg x _ | .subReg x _ | .shr x _ | .subnReg x _ | .shl x _ => { regs := [x, Reg.vf] }
  | .ldI _ | .addIVx _ | .ldFVx _ => { index := true }
  | .rnd x _ => { regs := [x], draws := true }
  | .drw _ _ _ => { regs := [Reg.vf], screen := true }
  | .ldDTVx _ => { dt := true }
  | .ldSTVx _ => { st := true }
  | .ldBVx _ => { stores := 3 }
  | .ldMemVx x => { stores := x.val + 1 }
  | .ldVxMem x => { regs := (List.finRange 16).filter fun r => r.val ≤ x.val }

/-- Everything outside the footprint is in `t` as it was in `s`: registers one by one, memory byte by byte. -/
structure Frame (f : Footprint) (s t : State) : Prop where
  regs : ∀ r, r ∉ f.regs → t.getV r = s.getV r
  index : f.index = false → t.index = s.index
  stack : f.stack = false → t.sp = s.sp ∧ t.stack = s.stack
  memory : ∀ a, ¬ (s.index.toNat ≤ a ∧ a < s.index.toNat + f.stores) → t.peek a = s.peek a
  screen : f.screen = false → t.fb = s.fb
  keys : t.keys = s.keys
  dt : f.dt = false → t.dt = s.dt
  st : f.st = false → t.st = s.st
  halt : t.halt = s.halt
  draws : f.draws = false → t.draws = s.draws

/-! ### The sprite's touched pixels (R151, R152) -/

/-- The pixel in column `px`, row `py` is touched by `DRW Vx, Vy, n`: some set bit of the sprite's `n` rows at `I` lands on it, each
coordinate reduced on its own, modulo 64 and modulo 32 (R151(a), (c)). -/
def State.touches (s : State) (x y : Reg) (n : Digit) (px : Fin 64) (py : Fin 32) : Prop :=
  ∃ row col : Nat, row < n.val ∧ col < 8 ∧ (s.peek (s.index.toNat + row)).getLsbD (7 - col) = true ∧
    px.val = ((s.getV x).toNat + col) % 64 ∧ py.val = ((s.getV y).toNat + row) % 32

/-! ### States that differ in unobservable stack entries (R18) -/

/-- `t` is `s` but for stack entries at index `SP` and above, which "are never read before they are written again" (R18). -/
def SameButStale (s t : State) : Prop :=
  t = { s with stack := t.stack } ∧ ∀ k : Fin 16, k.val < s.sp.val → t.stack[k] = s.stack[k]

end Sys2Proof.Machine
end

