-- ==== Sys2Proof/Certificates/Slice0/Obligations.lean ====
section
/-!
DEFINITION. The statements for the provers, from the numbered rules of spec/. Each docstring names the rule or section it formalises.
-/

open Sys2Proof Sys2Proof.Machine

/-! ## Encoding (30_encoding.md) -/

/-- Sections 1 to 3 (R61, R62, R65): decoding the word of any instruction gives it back with every operand, and a word that decodes to
an instruction is that instruction's word, so that no bit is dropped. -/
def Obligations.EncodeAndDecodeAreInverse : Prop :=
  (∀ i : Instr, decode (encode i) = .instr i) ∧ (∀ (w : Word) (i : Instr), decode w = .instr i → encode i = w)

/-- Section 3 (R64, R65): a word decodes to an instruction exactly when a row of the opcode table fits it, that row is the
instruction's and it is the only one that fits. -/
def Obligations.DecoderFollowsTheOpcodeTable : Prop :=
  ∀ w : Word,
    (∃ i, decode w = .instr i ∧ i.row ∈ opcodeTable ∧ ∀ r ∈ opcodeTable, r.fits w = true ↔ r = i.row) ∨
    (decode w = .unsupportedOpcode w ∧ ∀ r ∈ opcodeTable, r.fits w = false)

/-- Section 4 (the table of R66): the illegal words, family by family, and no others. -/
def Obligations.IllegalWordsByFamily : Prop :=
  ∀ w : Word, decode w = .unsupportedOpcode w ↔
    (digit1 w = 0x0 ∧ w ≠ 0x0000#16 ∧ w ≠ 0x00E0#16 ∧ w ≠ 0x00EE#16) ∨
    (digit1 w = 0x5 ∧ digit4 w ≠ 0x0) ∨
    (digit1 w = 0x8 ∧ digit4 w ∈ [0x8, 0x9, 0xA, 0xB, 0xC, 0xD, 0xF]) ∨
    (digit1 w = 0x9 ∧ digit4 w ≠ 0x0) ∨
    (digit1 w = 0xE ∧ byteField w ∉ [0x9E#8, 0xA1#8]) ∨
    (digit1 w = 0xF ∧ byteField w ∉ [0x07#8, 0x0A#8, 0x15#8, 0x18#8, 0x1E#8, 0x29#8, 0x33#8, 0x55#8, 0x65#8])

/-- Words of the spec's examples and vectors (sections 1 and 3), one or more per family, decode to the instructions they stand for. -/
def Obligations.ExampleWordsDecode : Prop :=
  decode 0x0000#16 = .instr .nop ∧ decode 0x00E0#16 = .instr .cls ∧ decode 0x00EE#16 = .instr .ret ∧
  decode 0x120C#16 = .instr (.jp 0x20C) ∧ decode 0x5120#16 = .instr (.seReg 1 2) ∧
  decode 0x6AB7#16 = .instr (.ldByte 0xA 0xB7) ∧ decode 0x8014#16 = .instr (.addReg 0 1) ∧
  decode 0x8016#16 = .instr (.shr 0 1) ∧ decode 0xBFFF#16 = .instr (.jpV0 0xFFF) ∧
  decode 0xC00F#16 = .instr (.rnd 0 0x0F) ∧ decode 0xD122#16 = .instr (.drw 1 2 2) ∧ decode 0xE29E#16 = .instr (.skp 2) ∧
  decode 0xF30A#16 = .instr (.ldVxK 3) ∧ decode 0xF155#16 = .instr (.ldMemVx 1) ∧
  decode 0x0001#16 = .unsupportedOpcode 0x0001#16 ∧ decode 0x912F#16 = .unsupportedOpcode 0x912F#16

/-! ## The step cycle (20_memory.md, 40_step_cycle.md) -/

/-- R45: the word is `MEM[pc0] * 256 + MEM[pc0 + 1]`; the byte at `pc0` supplies bits 15:8, the byte at `pc0 + 1` bits 7:0; so an image
is a sequence of byte pairs, high byte first. -/
def Obligations.FetchIsBigEndian : Prop :=
  (∀ s : State,
    s.fetchWord.toNat = (s.peek s.pc.toNat).toNat * 256 + (s.peek (s.pc.toNat + 1)).toNat ∧
    highByte s.fetchWord = s.peek s.pc.toNat ∧ lowByte s.fetchWord = s.peek (s.pc.toNat + 1)) ∧
  (∀ (s t : State) (image : List Byte) (k : Nat) (hk : k + 1 < image.length),
    s.mem.wf = true → s.load image = .ok t → t.pc.toNat = 0x200 + k →
    t.fetchWord.toNat = image[k].toNat * 256 + image[k + 1].toNat)

/-- Sections of R81 to R86: when the core is not halted, `pc` is below the fetch limit and the fetched word decodes to `i`, a step is
`exec i` at that state, and nothing is added around it. The fetch limit 0xFFE is decision D7 (log 6). -/
def Obligations.StepRunsTheDecodedInstruction : Prop :=
  ∀ (s : State) (i : Instr), s.halt = none → s.pc.toNat < 0xFFE → decode s.fetchWord = .instr i → step s = exec i s

/-- R85's order of the checks before execution, by decisions D7, D9, D10, D12 (logs 6, 7, 8, 9): a halted core's step changes nothing; then
the fetch bound; then decode; each fault changes nothing but the latch. -/
def Obligations.StepChecksInOrder : Prop :=
  ∀ s : State,
    (s.halt ≠ none → step s = .next s) ∧
    (s.halt = none → 0xFFE ≤ s.pc.toNat →
      step s = .next { s with halt := some ⟨.addressOutOfRange, s.pc, none, s.pc.toNat⟩ }) ∧
    (∀ w, s.halt = none → s.pc.toNat < 0xFFE → decode s.fetchWord = .unsupportedOpcode w →
      step s = .next { s with halt := some ⟨.unsupportedOpcode, s.pc, some s.fetchWord, s.fetchWord.toNat⟩ })

/-- R80, R84, R86 with decisions D9 and D11 (logs 7, 9): every step answers a next state; either `HALT` is as before, or the core was running and the
only change to the whole state is the latched record of the instruction at `pc0`, whose word is absent exactly for a fetch fault. -/
def Obligations.StepIsTotalAndFaultsArePrecise : Prop :=
  ∀ s : State, ∃ t, step s = .next t ∧
    (t.halt = s.halt ∨
      s.halt = none ∧ ∃ r : FaultRecord, t = { s with halt := some r } ∧ r.pc0 = s.pc ∧
        r.word = if 0xFFE ≤ s.pc.toNat then none else some s.fetchWord)

/-- R85, R160, R198 (c), (e), (f) by decisions D7, D12, D13, D14 (logs 6, 9, 10, 11): a step of a running core faults exactly when its fetch is
out of bounds, its word is no instruction, or the instruction's own check fails, and for no other reason. -/
def Obligations.StepFaultsExactlyWhenACheckFails : Prop :=
  ∀ s : State, s.halt = none → ∃ t, step s = .next t ∧
    (t.halt = none ↔ s.pc.toNat < 0xFFE ∧ ∃ i, decode s.fetchWord = .instr i ∧ s.dutiesMet i = true)

/-- R12, R17, R18, R21, R22, R24, R43, R136 as one frame: every instruction answers a next state, in which everything outside its
footprint is unchanged, or it faults and only the latch changes (R84, decisions D9 and D11, logs 7, 9). -/
def Obligations.EveryInstructionKeepsItsFrame : Prop :=
  ∀ (i : Instr) (s : State), ∃ t, exec i s = .next t ∧
    (Frame (footprint i) s t ∨ ∃ cause info, t = { s with halt := some ⟨cause, s.pc, some (encode i), info⟩ })

/-- The section of R60: placing an instruction's word where the next step fetches makes the next step run it, from every state. -/
def Obligations.PlacedInstructionIsTheNextOne : Prop :=
  ∀ (s : State) (i : Instr), s.mem.wf = true →
    step (s.withFetchWord 16 (encode i).toNat) = exec i (s.withFetchWord 16 (encode i).toNat)

/-! ## Invariants -/

/-- R16 and the canonical form of memory: every step keeps the invariant, so that `pc` never wraps at 2^16. -/
def Obligations.StepKeepsTheInvariant : Prop :=
  ∀ s t : State, s.Inv → step s = .next t → t.Inv

/-- The invariant holds at reset (R28). It rests on the reset pc and `SP`, the spec's own decisions D3 and D4 (logs 3, 4). -/
def Obligations.InvariantHoldsAtReset : Prop := State.reset.Inv

/-- Every host event keeps the invariant as well (R175, R184). For `reset()` it rests on the reset pc and `SP`, the spec's own decisions D3 and
D4 (logs 3, 4). -/
def Obligations.EveryEventKeepsTheInvariant : Prop :=
  ∀ (e : Event) (s : State), s.Inv → (handle e s).1.Inv

/-- Equal reads, equal memories: the canonical form makes memory a value (20_memory.md section 1). The list form is the model's (log 5). -/
def Obligations.CanonicalMemoryIsDeterminedByItsReads : Prop :=
  ∀ m m' : Memory, m.wf = true → m'.wf = true → (∀ a, m.peek a = m'.peek a) → m = m'

/-! ## Whole-machine rules -/

/-- R170 with decisions D10, D30 (log 8): a halted core stays halted with its record through every event but `reset()`, its step changes
nothing and reports the record again, and `reset()` clears the latch. -/
def Obligations.OnlyResetLeavesTheHaltedCore : Prop :=
  ∀ (s : State) (r : FaultRecord), s.halt = some r →
    (∀ e, e ≠ .reset → (handle e s).1.halt = some r) ∧ handle .step s = (s, .faulted r) ∧ (handle .reset s).1.halt = none

/-- R24, R143, R145, R146, R177: the timers. Each instruction's effect; a tick's effect; no other event touches them; no event makes `DT`
larger but an Fx15; no step changes a timer but through Fx15 and Fx18; no instruction reads `DT` but Fx07 and none reads `ST`. -/
def Obligations.TimersAreReadAndWrittenAsNamed : Prop :=
  (∀ (x : Reg) (s : State),
    exec (.ldVxDT x) s = .next { s with v := s.v.set x s.dt, pc := s.pc + 2 } ∧
    exec (.ldDTVx x) s = .next { s with dt := s.getV x, pc := s.pc + 2 } ∧
    exec (.ldSTVx x) s = .next { s with st := s.getV x, pc := s.pc + 2 } ∧
    (encode (.ldVxDT x)).toNat = 0xF007 + 256 * x.val ∧ (encode (.ldDTVx x)).toNat = 0xF015 + 256 * x.val ∧
    (encode (.ldSTVx x)).toNat = 0xF018 + 256 * x.val) ∧
  (∀ s : State, (handle .tickTimers s).1 = { s with dt := s.tickTimers.dt, st := s.tickTimers.st } ∧
    s.tickTimers.dt.toNat = s.dt.toNat - 1 ∧ s.tickTimers.st.toNat = s.st.toNat - 1) ∧
  (∀ (e : Event) (s : State), e ≠ .reset → e ≠ .tickTimers → e ≠ .step → (handle e s).1.dt = s.dt ∧ (handle e s).1.st = s.st) ∧
  (∀ (e : Event) (s : State), (∀ x, decode s.fetchWord ≠ .instr (.ldDTVx x)) → (handle e s).1.dt.toNat ≤ s.dt.toNat) ∧
  (∀ s t : State, step s = .next t →
    ((∀ x, decode s.fetchWord ≠ .instr (.ldDTVx x)) → t.dt = s.dt) ∧
    ((∀ x, decode s.fetchWord ≠ .instr (.ldSTVx x)) → t.st = s.st)) ∧
  (∀ (i : Instr) (s t : State) (b : Byte), exec i s = .next t →
    ((∀ x, i ≠ .ldVxDT x) → (∀ x, i ≠ .ldDTVx x) → exec i { s with dt := b } = .next { t with dt := b }) ∧
    ((∀ x, i ≠ .ldSTVx x) → exec i { s with st := b } = .next { t with st := b })) ∧
  (∀ (x : Reg) (s : State) (b : Byte),
    exec (.ldDTVx x) { s with dt := b } = exec (.ldDTVx x) s ∧ exec (.ldSTVx x) { s with st := b } = exec (.ldSTVx x) s)

/-- R23, R178: the keypad is written only by `set_key` and `reset()` and read only by Ex9E, ExA1 and Fx0A; `set_key` with an index of at most
15 sets that key and touches nothing else, and changes nothing when the key has that state already. That an index above 15 is refused is the
spec's own decision D22 (log 17). -/
def Obligations.KeypadIsWrittenByTheHostOnly : Prop :=
  (∀ (e : Event) (s : State), e ≠ .reset → (∀ k p, e ≠ .setKey k p) → (handle e s).1.keys = s.keys) ∧
  (∀ (s : State) (k j : Fin 16) (p : Bool),
    handle (.setKey k.val p) s = ({ s with keys := s.keys.set k p }, .done) ∧
    (handle (.setKey k.val p) s).1.key j = (if j = k then p else s.key j) ∧
    (s.key k = p → handle (.setKey k.val p) s = (s, .done))) ∧
  (∀ (s : State) (k : Nat) (p : Bool), 15 < k → handle (.setKey k p) s = (s, .refused (.indexOutOfRange k))) ∧
  (∀ (i : Instr) (s t : State) (ks : Vector Bool 16), exec i s = .next t →
    (∀ x, i ≠ .skp x ∧ i ≠ .sknp x ∧ i ≠ .ldVxK x) → exec i { s with keys := ks } = .next { t with keys := ks })

/-- Section of R22: the framebuffer is written by 00E0, Dxyn and `reset()` and by nothing else; Dxyn is its only reader among instructions; in
row-major flat order the pixel in column x, row y is element `y * 64 + x` of 2048; the host reads it through `framebuffer()`. -/
def Obligations.FramebufferIsWrittenByDrawClearAndReset : Prop :=
  (∀ (e : Event) (s : State), e ≠ .reset → e ≠ .step → (handle e s).1.fb = s.fb) ∧
  (∀ s t : State, step s = .next t → decode s.fetchWord ≠ .instr .cls →
    (∀ x y n, decode s.fetchWord ≠ .instr (.drw x y n)) → t.fb = s.fb) ∧
  (∀ (s : State) (x : Fin 64) (y : Fin 32),
    (handle .reset s).1.fb.pixel x y = false ∧ handle .framebuffer s = (s, .pixels s.fb) ∧
    s.fb.flatten[y.val * 64 + x.val]? = some (s.fb.pixel x y)) ∧
  (∀ (i : Instr) (s t : State) (fb : Framebuffer), exec i s = .next t → i ≠ .cls → (∀ x y n, i ≠ .drw x y n) →
    exec i { s with fb := fb } = .next { t with fb := fb }) ∧
  (∀ (s : State) (fb : Framebuffer), exec .cls { s with fb := fb } = exec .cls s)

/-- R18, R31: stack entries at `SP` and above are unobservable: two states that differ only there step to states that differ only there. -/
def Obligations.StaleStackEntriesAreUnobservable : Prop :=
  ∀ s s' t : State, SameButStale s s' → step s = .next t → ∃ t', step s' = .next t' ∧ SameButStale t t'

/-- R10: "every one of the 16 holds whatever was last written to it", and a write changes no other register. Sections of R12 and R183: the host
reads and writes the same file with an index of at most 15, by the spec's own decision D24 (log 17). -/
def Obligations.RegistersHoldWhatWasLastWritten : Prop :=
  ∀ (s : State) (x r : Reg) (b : Byte),
    (s.setV x b).getV r = (if r = x then b else s.getV r) ∧
    handle (.setRegister x.val b) s = (s.setV x b, .done) ∧
    handle (.getRegister r.val) s = (s, .register (s.getV r))

/-- R195, a convention of the spec (decision D29): in an end state, a jump to itself, no step changes any state. -/
def Obligations.EndStateIsStable : Prop :=
  ∀ s : State, s.atEnd = true → step s = .next s

/-! ## Control flow (41_control_flow.md) -/

/-- R90: `NOP` only advances `pc`; only the word 0x0000 is a no-op, the other words of the 0x0nnn space but 0x00E0 and 0x00EE are illegal, and
zero-filled memory executes as no-ops. -/
def Obligations.NopOnlyAdvances : Prop :=
  (∀ s : State, exec .nop s = .next { s with pc := s.pc + 2 }) ∧
  (∀ w : Word, decode w = .instr .nop ↔ w = 0x0000#16) ∧
  (∀ w : Word, w.toNat < 0x1000 → w ≠ 0x0000#16 → w ≠ 0x00E0#16 → w ≠ 0x00EE#16 → decode w = .unsupportedOpcode w) ∧
  (∀ s : State, s.fetches = true → s.peek s.pc.toNat = 0 → s.peek (s.pc.toNat + 1) = 0 →
    step s = .next { s with pc := s.pc + 2 })

/-- Sections of R92 and R94 with decision D17 (log 13): the target is `nnn`, or `nnn + V0` neither masked nor wrapped; nothing else changes
and nothing is checked at the jump; after either jump a target of 0xFFE or more makes the next step fault (the fetch limit is decision D7,
log 6, the record decision D11, log 9). -/
def Obligations.JumpsSetThePcUnchecked : Prop :=
  ∀ (nnn : Addr12) (s : State), ∃ t u,
    exec (.jp nnn) s = .next t ∧ t = { s with pc := t.pc } ∧ t.pc.toNat = nnn.toNat ∧
    (s.halt = none → 0xFFE ≤ t.pc.toNat →
      step t = .next { t with halt := some ⟨.addressOutOfRange, t.pc, none, t.pc.toNat⟩ }) ∧
    exec (.jpV0 nnn) s = .next u ∧ u = { s with pc := u.pc } ∧ u.pc.toNat = nnn.toNat + (s.getV 0).toNat ∧
    (s.halt = none → 0xFFE ≤ u.pc.toNat →
      step u = .next { u with halt := some ⟨.addressOutOfRange, u.pc, none, u.pc.toNat⟩ })

/-- Section of R93 and R19, layout by decision D18 (log 14): with fewer than 16 entries a call stores `npc` at `STACK[SP]`, increments `SP` and
jumps; no other entry and nothing else changes. -/
def Obligations.CallPushesAndJumps : Prop :=
  ∀ (nnn : Addr12) (s : State) (h : s.sp.val < 16), ∃ t, exec (.call nnn) s = .next t ∧
    t.pc.toNat = nnn.toNat ∧ t.sp.val = s.sp.val + 1 ∧ t.stack[s.sp.val] = s.pc + 2 ∧
    (∀ k : Fin 16, k.val ≠ s.sp.val → t.stack[k] = s.stack[k]) ∧ Frame { stack := true } s t

/-- Section of R91 and R20, layout by decision D18 (log 14): with an occupied entry a return takes the most recently pushed one as `pc`,
unchecked, and decrements `SP`; no entry and nothing else changes. -/
def Obligations.RetPopsThePc : Prop :=
  ∀ (s : State) (h : 0 < s.sp.val), ∃ t, exec .ret s = .next t ∧
    t.pc = s.stack[s.sp.val - 1] ∧ t.sp.val = s.sp.val - 1 ∧ t.stack = s.stack ∧ Frame { stack := true } s t

/-- Sections of R163 and R164 (decisions D9, D11; logs 7, 9): a call on a full stack and a return on an empty one change nothing but the latch. -/
def Obligations.StackFaultsChangeOnlyTheLatch : Prop :=
  ∀ (s : State) (nnn : Addr12),
    (s.sp.val = 16 → exec (.call nnn) s = .next { s with halt := some ⟨.stackOverflow, s.pc, some (encode (.call nnn)), 16⟩ }) ∧
    (s.sp.val = 0 → exec .ret s = .next { s with halt := some ⟨.stackUnderflow, s.pc, some 0x00EE#16, 0⟩ })

/-- The source's round trip (section of R20): after a call, a return in any state with the call's stack resumes at the instruction after the
call with the old `SP`. -/
def Obligations.ReturnResumesAfterTheCall : Prop :=
  ∀ (nnn : Addr12) (s t u : State), s.sp.val < 16 → exec (.call nnn) s = .next t → u.sp = t.sp → u.stack = t.stack →
    ∃ w, exec .ret u = .next w ∧ w.pc = s.pc + 2 ∧ w.sp = s.sp

/-! ## Skips (42_skips.md) -/

/-- R100, R101: the byte skips, complements of each other; only `pc` changes. -/
def Obligations.ByteSkipsCompareTheRegister : Prop :=
  ∀ (x : Reg) (kk : Byte) (s : State),
    exec (.seByte x kk) s = .next { s with pc := if s.getV x = kk then s.pc + 2 + 2 else s.pc + 2 } ∧
    exec (.sneByte x kk) s = .next { s with pc := if s.getV x = kk then s.pc + 2 else s.pc + 2 + 2 } ∧
    (encode (.seByte x kk)).toNat = 0x3000 + 256 * x.val + kk.toNat ∧
    (encode (.sneByte x kk)).toNat = 0x4000 + 256 * x.val + kk.toNat

/-- R102, R103: the register skips; with `x = y` the one always skips and the other never does; a digit4 from 1 to 0xF is illegal. -/
def Obligations.RegisterSkipsCompareTheRegisters : Prop :=
  (∀ (x y : Reg) (s : State),
    exec (.seReg x y) s = .next { s with pc := if s.getV x = s.getV y then s.pc + 2 + 2 else s.pc + 2 } ∧
    exec (.sneReg x y) s = .next { s with pc := if s.getV x = s.getV y then s.pc + 2 else s.pc + 2 + 2 } ∧
    (encode (.seReg x y)).toNat = 0x5000 + 256 * x.val + 16 * y.val ∧
    (encode (.sneReg x y)).toNat = 0x9000 + 256 * x.val + 16 * y.val ∧
    (x = y → exec (.seReg x y) s = .next { s with pc := s.pc + 2 + 2 } ∧
      exec (.sneReg x y) s = .next { s with pc := s.pc + 2 })) ∧
  (∀ w : Word, digit1 w = 0x5 ∨ digit1 w = 0x9 → digit4 w ≠ 0 → decode w = .unsupportedOpcode w)

/-! ## Load and ALU (43_load_alu.md) -/

/-- R110, R111, R112: the loads and the byte add, modulo 256; VF is written only when it is `x`; `get_register` reads the loaded byte. -/
def Obligations.LoadsAndByteAddWriteOneRegister : Prop :=
  ∀ (x y : Reg) (kk : Byte) (s : State), ∃ t u w,
    exec (.ldByte x kk) s = .next t ∧ t = { s with v := s.v.set x kk, pc := s.pc + 2 } ∧
    handle (.getRegister x.val) t = (t, .register kk) ∧
    exec (.addByte x kk) s = .next u ∧ (u.getV x).toNat = ((s.getV x).toNat + kk.toNat) % 256 ∧
    u = { s with v := s.v.set x (u.getV x), pc := s.pc + 2 } ∧
    exec (.ldReg x y) s = .next w ∧ w = { s with v := s.v.set x (s.getV y), pc := s.pc + 2 } ∧ (x = y → w.v = s.v) ∧
    (encode (.ldByte x kk)).toNat = 0x6000 + 256 * x.val + kk.toNat ∧
    (encode (.addByte x kk)).toNat = 0x7000 + 256 * x.val + kk.toNat ∧
    (encode (.ldReg x y)).toNat = 0x8000 + 256 * x.val + 16 * y.val

/-- R113, R114, R115: the bitwise operations act on all 8 bits independently and write `V[x]` alone; VF is not written. -/
def Obligations.BitwiseOperationsActPerBit : Prop :=
  ∀ (x y : Reg) (s : State), ∃ t u w,
    exec (.orReg x y) s = .next t ∧ exec (.andReg x y) s = .next u ∧ exec (.xorReg x y) s = .next w ∧
    (∀ k, (t.getV x).getLsbD k = ((s.getV x).getLsbD k || (s.getV y).getLsbD k)) ∧
    (∀ k, (u.getV x).getLsbD k = ((s.getV x).getLsbD k && (s.getV y).getLsbD k)) ∧
    (∀ k, (w.getV x).getLsbD k = ((s.getV x).getLsbD k ^^ (s.getV y).getLsbD k)) ∧
    t = { s with v := s.v.set x (t.getV x), pc := s.pc + 2 } ∧ u = { s with v := s.v.set x (u.getV x), pc := s.pc + 2 } ∧
    w = { s with v := s.v.set x (w.getV x), pc := s.pc + 2 } ∧
    (x = y → t.v = s.v ∧ u.v = s.v ∧ w.getV x = 0) ∧
    (encode (.orReg x y)).toNat = 0x8001 + 256 * x.val + 16 * y.val ∧
    (encode (.andReg x y)).toNat = 0x8002 + 256 * x.val + 16 * y.val ∧
    (encode (.xorReg x y)).toNat = 0x8003 + 256 * x.val + 16 * y.val

/-- Section of R116: the sum modulo 256 and the carry, operands read before either write. With `x = 0xF` VF ends as the carry and the sum
is lost (the spec's own decision D15, log 12). -/
def Obligations.AddSetsTheCarry : Prop :=
  ∀ (x y : Reg) (s : State), ∃ t, exec (.addReg x y) s = .next t ∧ t.pc = s.pc + 2 ∧
    (x ≠ Reg.vf → (t.getV x).toNat = ((s.getV x).toNat + (s.getV y).toNat) % 256) ∧
    t.getV Reg.vf = (if (s.getV x).toNat + (s.getV y).toNat > 255 then 1#8 else 0#8) ∧
    Frame { regs := [x, Reg.vf] } s t

/-- Sections of R117 and R119: the differences modulo 256 and NOT borrow, equality counting as no borrow. With `x = 0xF` VF ends as the flag
(the spec's own decision D15, log 12). -/
def Obligations.SubtractionsSetNotBorrow : Prop :=
  ∀ (x y : Reg) (s : State), ∃ t u,
    exec (.subReg x y) s = .next t ∧ t.pc = s.pc + 2 ∧
    (x ≠ Reg.vf → (t.getV x).toNat = ((s.getV x).toNat + 256 - (s.getV y).toNat) % 256) ∧
    t.getV Reg.vf = (if (s.getV y).toNat ≤ (s.getV x).toNat then 1#8 else 0#8) ∧ Frame { regs := [x, Reg.vf] } s t ∧
    exec (.subnReg x y) s = .next u ∧ u.pc = s.pc + 2 ∧
    (x ≠ Reg.vf → (u.getV x).toNat = ((s.getV y).toNat + 256 - (s.getV x).toNat) % 256) ∧
    u.getV Reg.vf = (if (s.getV x).toNat ≤ (s.getV y).toNat then 1#8 else 0#8) ∧ Frame { regs := [x, Reg.vf] } s u

/-- Sections of R118 and R120: shifts by one, the bit shifted out in VF, `V[y]` not read. With `x = 0xF` VF ends as the shifted value and the
flag is lost (the spec's own decision D15, log 12). -/
def Obligations.ShiftsMoveTheBitOut : Prop :=
  ∀ (x y : Reg) (s : State), ∃ t u,
    exec (.shr x y) s = .next t ∧ t.pc = s.pc + 2 ∧ (t.getV x).toNat = (s.getV x).toNat / 2 ∧
    (x ≠ Reg.vf → (t.getV Reg.vf).toNat = (s.getV x).toNat % 2) ∧ Frame { regs := [x, Reg.vf] } s t ∧
    exec (.shl x y) s = .next u ∧ u.pc = s.pc + 2 ∧ (u.getV x).toNat = (s.getV x).toNat * 2 % 256 ∧
    (x ≠ Reg.vf → (u.getV Reg.vf).toNat = (s.getV x).toNat / 128) ∧ Frame { regs := [x, Reg.vf] } s u ∧
    (∀ y', exec (.shr x y') s = .next t ∧ exec (.shl x y') s = .next u)

/-! ## Index and memory (44_index_memory.md) -/

/-- R130, R132: `I` gets `nnn`, or five times the whole of `V[x]` exactly; no memory is accessed and nothing else changes. -/
def Obligations.IndexLoadsAreExact : Prop :=
  ∀ (nnn : Addr12) (x : Reg) (s : State), ∃ t u,
    exec (.ldI nnn) s = .next t ∧ t = { s with index := t.index, pc := s.pc + 2 } ∧ t.index.toNat = nnn.toNat ∧
    exec (.ldFVx x) s = .next u ∧ u = { s with index := u.index, pc := s.pc + 2 } ∧
    u.index.toNat = 5 * (s.getV x).toNat ∧
    (encode (.ldI nnn)).toNat = 0xA000 + nnn.toNat ∧ (encode (.ldFVx x)).toNat = 0xF029 + 256 * x.val

/-- Section of R131 with decision D27 (log 15): `I + V[x]` modulo 65536, no flag and no range check. -/
def Obligations.IndexAddWrapsAtSixteenBits : Prop :=
  ∀ (x : Reg) (s : State), ∃ t, exec (.addIVx x) s = .next t ∧ t = { s with index := t.index, pc := s.pc + 2 } ∧
    t.index.toNat = (s.index.toNat + (s.getV x).toNat) % 65536

/-- Section of R133: when `I` to `I + 2` exist, the decimal digits of `V[x]` lie there, hundreds first, and nothing else changes. -/
def Obligations.BcdStoresTheDecimalDigits : Prop :=
  ∀ (x : Reg) (s : State), s.mem.wf = true → s.index.toNat + 2 ≤ 0xFFF →
    ∃ t, exec (.ldBVx x) s = .next t ∧ t.pc = s.pc + 2 ∧ t.v = s.v ∧
      (t.peek s.index.toNat).toNat = (s.getV x).toNat / 100 ∧
      (t.peek (s.index.toNat + 1)).toNat = (s.getV x).toNat / 10 % 10 ∧
      (t.peek (s.index.toNat + 2)).toNat = (s.getV x).toNat % 10 ∧ Frame { stores := 3 } s t

/-- Section of R134: when `I` to `I + x` exist, `V[0]` to `V[x]` lie there in order, and nothing else changes. -/
def Obligations.StoreCopiesRegistersToMemory : Prop :=
  ∀ (x : Reg) (s : State), s.mem.wf = true → s.index.toNat + x.val ≤ 0xFFF →
    ∃ t, exec (.ldMemVx x) s = .next t ∧ t.pc = s.pc + 2 ∧
      (∀ r : Reg, r ≤ x → t.peek (s.index.toNat + r.val) = s.getV r) ∧ Frame { stores := x.val + 1 } s t

/-- Section of R135: when `I` to `I + x` exist, `V[0]` to `V[x]` are loaded from there, and nothing else changes, no byte of memory and
neither `I` nor a register above `x`. -/
def Obligations.LoadCopiesMemoryToRegisters : Prop :=
  ∀ (x : Reg) (s : State), s.index.toNat + x.val ≤ 0xFFF →
    ∃ t, exec (.ldVxMem x) s = .next t ∧ t.pc = s.pc + 2 ∧
      (∀ r : Reg, t.getV r = if r ≤ x then s.peek (s.index.toNat + r.val) else s.getV r) ∧
      Frame (footprint (.ldVxMem x)) s t

/-- Sections of R44, R161 with decisions D9, D11 and D14 (logs 7, 9, 11): where the highest address exceeds 0xFFF, in unbounded integers, nothing changes
but the latch, which records the lowest offending address. -/
def Obligations.RangeFaultsChangeOnlyTheLatch : Prop :=
  ∀ (x y : Reg) (n : Digit) (s : State),
    (0xFFF < s.index.toNat + 2 → exec (.ldBVx x) s =
      .next { s with halt := some ⟨.addressOutOfRange, s.pc, some (encode (.ldBVx x)), max s.index.toNat 0x1000⟩ }) ∧
    (0xFFF < s.index.toNat + x.val → exec (.ldMemVx x) s =
      .next { s with halt := some ⟨.addressOutOfRange, s.pc, some (encode (.ldMemVx x)), max s.index.toNat 0x1000⟩ }) ∧
    (0xFFF < s.index.toNat + x.val → exec (.ldVxMem x) s =
      .next { s with halt := some ⟨.addressOutOfRange, s.pc, some (encode (.ldVxMem x)), max s.index.toNat 0x1000⟩ }) ∧
    (0 < n.val → 0xFFF < s.index.toNat + (n.val - 1) → exec (.drw x y n) s =
      .next { s with halt := some ⟨.addressOutOfRange, s.pc, some (encode (.drw x y n)), max s.index.toNat 0x1000⟩ })

/-- Sections of R46, R134, R135: registers stored by Fx55 come back by Fx65 from any state with that memory and `I`. -/
def Obligations.StoredRegistersLoadBack : Prop :=
  ∀ (x : Reg) (s t u : State), s.mem.wf = true → s.index.toNat + x.val ≤ 0xFFF → exec (.ldMemVx x) s = .next t →
    u.mem = t.mem → u.index = t.index → ∃ w, exec (.ldVxMem x) u = .next w ∧ ∀ r : Reg, r ≤ x → w.getV r = s.getV r

/-- Section of R54 with decision D25 (log 16): whatever bytes an Fx55 or an Fx33 that completes has stored, the very next fetch reads each of
them that lies at the following instruction's two bytes, and reads the others as they were. -/
def Obligations.NextFetchSeesTheStore : Prop :=
  (∀ (x : Reg) (s t : State), s.mem.wf = true → s.index.toNat + x.val ≤ 0xFFF → exec (.ldMemVx x) s = .next t →
    t.pc = s.pc + 2 ∧
    (∀ r : Reg, r ≤ x →
      (s.index.toNat + r.val = t.pc.toNat → highByte t.fetchWord = s.getV r) ∧
      (s.index.toNat + r.val = t.pc.toNat + 1 → lowByte t.fetchWord = s.getV r)) ∧
    ((∀ r : Reg, r ≤ x → s.index.toNat + r.val ≠ t.pc.toNat) → highByte t.fetchWord = s.peek t.pc.toNat) ∧
    ((∀ r : Reg, r ≤ x → s.index.toNat + r.val ≠ t.pc.toNat + 1) → lowByte t.fetchWord = s.peek (t.pc.toNat + 1))) ∧
  (∀ (x : Reg) (s t : State), s.mem.wf = true → s.index.toNat + 2 ≤ 0xFFF → exec (.ldBVx x) s = .next t →
    t.pc = s.pc + 2 ∧
    (∀ k : Fin 3,
      (s.index.toNat + k.val = t.pc.toNat → (highByte t.fetchWord).toNat = (s.getV x).toNat / 10 ^ (2 - k.val) % 10) ∧
      (s.index.toNat + k.val = t.pc.toNat + 1 → (lowByte t.fetchWord).toNat = (s.getV x).toNat / 10 ^ (2 - k.val) % 10)) ∧
    ((∀ k : Fin 3, s.index.toNat + k.val ≠ t.pc.toNat) → highByte t.fetchWord = s.peek t.pc.toNat) ∧
    ((∀ k : Fin 3, s.index.toNat + k.val ≠ t.pc.toNat + 1) → lowByte t.fetchWord = s.peek (t.pc.toNat + 1)))

/-! ## Random and keypad (45_random_keypad_timers.md) -/

/-- Section of R140 with decision D16 (log 1): the register gets the free byte of this execution under the mask, whatever that byte is, so that
every bit that is 0 in `kk` is 0; the next execution takes another free byte. -/
def Obligations.RandomByteIsMasked : Prop :=
  ∀ (x : Reg) (kk : Byte) (s : State), ∃ t, exec (.rnd x kk) s = .next t ∧ t.pc = s.pc + 2 ∧
    t.getV x = Config.randomByte s.draws &&& kk ∧ (∀ k, kk.getLsbD k = false → (t.getV x).getLsbD k = false) ∧
    t.draws ≠ s.draws ∧ Frame { regs := [x], draws := true } s t

/-- Sections of R141 and R142: with `V[x]` from 0 to 15 the keypad skips test `KEY[V[x]]`, complements of each other; only `pc` changes. -/
def Obligations.KeypadSkipsTestTheKey : Prop :=
  ∀ (x : Reg) (s : State) (h : (s.getV x).toNat < 16),
    exec (.skp x) s = .next { s with pc := if s.key ⟨(s.getV x).toNat, h⟩ then s.pc + 2 + 2 else s.pc + 2 } ∧
    exec (.sknp x) s = .next { s with pc := if s.key ⟨(s.getV x).toNat, h⟩ then s.pc + 2 else s.pc + 2 + 2 }

/-- Section of R147 with decisions D9, D11 and D13 (logs 7, 9, 10): with `V[x]` above 15 there is no such key and nothing changes but the latch. -/
def Obligations.KeypadIndexFaultsChangeOnlyTheLatch : Prop :=
  ∀ (x : Reg) (s : State), 15 < (s.getV x).toNat →
    exec (.skp x) s = .next { s with halt := some ⟨.indexOutOfRange, s.pc, some (encode (.skp x)), (s.getV x).toNat⟩ } ∧
    exec (.sknp x) s = .next { s with halt := some ⟨.indexOutOfRange, s.pc, some (encode (.sknp x)), (s.getV x).toNat⟩ }

/-- R144: with a pressed key the least one's number goes to `V[x]`; with none the step changes nothing at all, so that the same instruction is
fetched again. -/
def Obligations.KeyWaitTakesTheLeastKeyOrRepeats : Prop :=
  (∀ (x : Reg) (s : State) (k : Fin 16), s.key k = true → (∀ j, j < k → s.key j = false) →
    ∃ t, exec (.ldVxK x) s = .next t ∧ (t.getV x).toNat = k.val ∧ t = { s with v := s.v.set x (t.getV x), pc := s.pc + 2 }) ∧
  (∀ (x : Reg) (s : State), (∀ k, s.key k = false) → exec (.ldVxK x) s = .next s) ∧
  (∀ x : Reg, (encode (.ldVxK x)).toNat = 0xF00A + 256 * x.val)

/-! ## Display (46_display.md) -/

/-- Section of R150: every pixel is off afterwards, VF and everything else is as before; the word is exactly 0x00E0. -/
def Obligations.ClearTurnsEveryPixelOff : Prop :=
  (∀ s : State, ∃ t, exec .cls s = .next t ∧ (∀ x y, t.fb.pixel x y = false) ∧ t = { s with fb := t.fb, pc := s.pc + 2 }) ∧
  (∀ w : Word, decode w = .instr .cls ↔ w = 0x00E0#16)

/-- Sections of R151 and R152: where the sprite's bytes exist, a draw inverts exactly the touched pixels and sets VF to 1 when one of them was on,
else to 0; nothing else changes. The sequential draw of the model equals the draw by the set of touched pixels. -/
def Obligations.DrawInvertsTheTouchedPixels : Prop :=
  ∀ (x y : Reg) (n : Digit) (s : State), n.val = 0 ∨ s.index.toNat + (n.val - 1) ≤ 0xFFF →
    ∃ t, exec (.drw x y n) s = .next t ∧ t.pc = s.pc + 2 ∧
      (∀ px py, s.touches x y n px py → t.fb.pixel px py = !s.fb.pixel px py) ∧
      (∀ px py, ¬ s.touches x y n px py → t.fb.pixel px py = s.fb.pixel px py) ∧
      ((∃ px py, s.touches x y n px py ∧ s.fb.pixel px py = true) → t.getV Reg.vf = 1#8) ∧
      ((∀ px py, s.touches x y n px py → s.fb.pixel px py = false) → t.getV Reg.vf = 0#8) ∧
      Frame { regs := [Reg.vf], screen := true } s t

/-- R151(d): with `n = 0` no address is checked, nothing is drawn and VF is 0, whatever `I` is. -/
def Obligations.DrawOfNoRowsOnlyClearsTheFlag : Prop :=
  ∀ (x y : Reg) (s : State), exec (.drw x y 0) s = .next { s with v := s.v.set Reg.vf 0, pc := s.pc + 2 }

/-- Section of R153: the same draw twice restores the framebuffer when neither coordinate is VF; with every touched pixel off before, the first draw
reports 0 and the second 1 if the sprite has a 1 bit. -/
def Obligations.DrawingTwiceRestoresTheScreen : Prop :=
  ∀ (x y : Reg) (n : Digit) (s t : State), x ≠ Reg.vf → y ≠ Reg.vf → n.val = 0 ∨ s.index.toNat + (n.val - 1) ≤ 0xFFF →
    exec (.drw x y n) s = .next t →
    ∃ u, exec (.drw x y n) t = .next u ∧ u.fb = s.fb ∧
      ((∀ px py, s.touches x y n px py → s.fb.pixel px py = false) → t.getV Reg.vf = 0#8 ∧
        ((∃ px py, s.touches x y n px py) → u.getV Reg.vf = 1#8) ∧
        ((∀ px py, ¬ s.touches x y n px py) → u.getV Reg.vf = 0#8 ∧ t.fb = s.fb))

/-! ## Host events (60_exceptions.md, 70_reset_and_hazards.md) -/

/-- Sections of R28, R190, R196: the state after `reset()`, whatever the state before. The font's place is the source's; the zeros and the entry
point are decisions D3, D4, D5 (logs 3, 4, 5); `draws` is the model's own (log 18). -/
def Obligations.ResetGivesTheResetState : Prop :=
  ∀ s : State, ∃ t, handle .reset s = (t, .done) ∧ t.pc = 0x200#16 ∧ t.index = 0 ∧ t.sp = 0 ∧ t.dt = 0 ∧ t.st = 0 ∧ t.halt = none ∧
    (∀ r, t.getV r = 0) ∧ (∀ k : Fin 16, t.stack[k] = 0) ∧ (∀ k, t.key k = false) ∧ (∀ x y, t.fb.pixel x y = false) ∧
    (∀ a, (h : a < 80) → some (t.peek a) = Config.font[a]?) ∧ (∀ a, 80 ≤ a → t.peek a = 0) ∧
    (handle .reset t).1 = t ∧ (s = State.reset → t = s)

/-- Section of R192 with decision D23 (log 17): an image of at most 3584 bytes lies at 0x200 and nothing else changes; a longer one is refused and
nothing changes. -/
def Obligations.LoadCopiesTheImage : Prop :=
  ∀ (image : List Byte) (s : State),
    (image.length ≤ 3584 → ∃ t, handle (.load image) s = (t, .done) ∧ t = { s with mem := t.mem } ∧
      (s.mem.wf = true → ∀ k, (h : k < image.length) → t.peek (0x200 + k) = image[k]) ∧
      (∀ a, ¬ (0x200 ≤ a ∧ a < 0x200 + image.length) → t.peek a = s.peek a)) ∧
    (3584 < image.length → handle (.load image) s = (s, .refused (.romTooLarge image.length)))

/-- Sections of R180, R181 and R183 with decisions D20 and D24 (log 17): the host's reads answer what the state holds and change nothing; the
sound signal is active exactly while `ST` is not zero. -/
def Obligations.HostReadsAnswerTheStateAndChangeNothing : Prop :=
  ∀ s : State,
    handle .readSound s = (s, .sound s.st (s.st != 0)) ∧ (s.soundActive = true ↔ 0 < s.st.toNat) ∧
    handle .framebuffer s = (s, .pixels s.fb) ∧
    (∀ r : Reg, handle (.getRegister r.val) s = (s, .register (s.getV r)))

/-- Sections of R178 and R183 with decisions D22, D24 (log 17): a host call with an index above 15 is refused with `IndexOutOfRange` and changes
nothing; the reads change nothing. -/
def Obligations.HostIndexesAreChecked : Prop :=
  ∀ (i : Nat) (p : Bool) (b : Byte) (s : State), 15 < i →
    handle (.setKey i p) s = (s, .refused (.indexOutOfRange i)) ∧
    handle (.getRegister i) s = (s, .refused (.indexOutOfRange i)) ∧
    handle (.setRegister i b) s = (s, .refused (.indexOutOfRange i))
end

