-- ==== Sys2Proof/Laws/Decode.lean ====
section
/-!
SUPPORT. The fields of the formats (spec/30_encoding.md R61, R62): what each field reads in a word built by each format, and that
a word is put together again from its fields.
-/
namespace Sys2Proof

theorem digit1_val (w : Word) : (digit1 w).val = w.toNat / 4096 := by
  have := w.isLt
  simp [digit1, Nat.shiftRight_eq_div_pow]; omega

theorem digit2_val (w : Word) : (digit2 w).val = w.toNat / 256 % 16 := by
  simp [digit2, Nat.shiftRight_eq_div_pow]

theorem digit3_val (w : Word) : (digit3 w).val = w.toNat / 16 % 16 := by
  simp [digit3, Nat.shiftRight_eq_div_pow]

theorem digit4_val (w : Word) : (digit4 w).val = w.toNat % 16 := by
  simp [digit4]

theorem byteField_toNat (w : Word) : (byteField w).toNat = w.toNat % 256 := by
  simp [byteField]

theorem addrField_toNat (w : Word) : (addrField w).toNat = w.toNat % 4096 := by
  simp [addrField]

theorem highByte_toNat (w : Word) : (highByte w).toNat = w.toNat / 256 := by
  have := w.isLt
  simp [highByte, Nat.shiftRight_eq_div_pow]; omega

theorem lowByte_toNat (w : Word) : (lowByte w).toNat = w.toNat % 256 := by
  simp [lowByte]

theorem append_toNat {m n : Nat} (a : BitVec m) (b : BitVec n) : (a ++ b).toNat = a.toNat * 2 ^ n + b.toNat := by
  rw [BitVec.toNat_append, Nat.shiftLeft_eq, Nat.mul_comm, Nat.two_pow_add_eq_or_of_lt b.isLt]

theorem digitBits_toNat (d : Digit) : (digitBits d).toNat = d.val := rfl

theorem formatA_toNat (op : Digit) (nnn : Addr12) : (formatA op nnn).toNat = op.val * 4096 + nnn.toNat := by
  simp only [formatA, append_toNat, digitBits_toNat]; omega

theorem formatXK_toNat (op x : Digit) (kk : Byte) :
    (formatXK op x kk).toNat = op.val * 4096 + x.val * 256 + kk.toNat := by
  simp only [formatXK, append_toNat, digitBits_toNat]; omega

theorem formatXYN_toNat (op x y n : Digit) :
    (formatXYN op x y n).toNat = op.val * 4096 + x.val * 256 + y.val * 16 + n.val := by
  simp only [formatXYN, append_toNat, digitBits_toNat]; omega

/-- "combine most-significant-byte-first into a 16-bit word" (R45). -/
theorem wordOfBytes_toNat (hi lo : Byte) : (wordOfBytes hi lo).toNat = hi.toNat * 256 + lo.toNat := by
  simp only [wordOfBytes, append_toNat]; omega

/-! ### What each field reads in each format -/

@[simp] theorem digit1_formatA (op : Digit) (nnn : Addr12) : digit1 (formatA op nnn) = op := by
  have := nnn.isLt
  apply Fin.ext; rw [digit1_val, formatA_toNat]; omega

@[simp] theorem addrField_formatA (op : Digit) (nnn : Addr12) : addrField (formatA op nnn) = nnn := by
  have := nnn.isLt
  apply BitVec.eq_of_toNat_eq; rw [addrField_toNat, formatA_toNat]; omega

@[simp] theorem digit1_formatXK (op x : Digit) (kk : Byte) : digit1 (formatXK op x kk) = op := by
  have := kk.isLt
  apply Fin.ext; rw [digit1_val, formatXK_toNat]; omega

@[simp] theorem digit2_formatXK (op x : Digit) (kk : Byte) : digit2 (formatXK op x kk) = x := by
  have := kk.isLt
  apply Fin.ext; rw [digit2_val, formatXK_toNat]; omega

@[simp] theorem byteField_formatXK (op x : Digit) (kk : Byte) : byteField (formatXK op x kk) = kk := by
  have := kk.isLt
  apply BitVec.eq_of_toNat_eq; rw [byteField_toNat, formatXK_toNat]; omega

@[simp] theorem digit1_formatXYN (op x y n : Digit) : digit1 (formatXYN op x y n) = op := by
  apply Fin.ext; rw [digit1_val, formatXYN_toNat]; omega

@[simp] theorem digit2_formatXYN (op x y n : Digit) : digit2 (formatXYN op x y n) = x := by
  apply Fin.ext; rw [digit2_val, formatXYN_toNat]; omega

@[simp] theorem digit3_formatXYN (op x y n : Digit) : digit3 (formatXYN op x y n) = y := by
  apply Fin.ext; rw [digit3_val, formatXYN_toNat]; omega

@[simp] theorem digit4_formatXYN (op x y n : Digit) : digit4 (formatXYN op x y n) = n := by
  apply Fin.ext; rw [digit4_val, formatXYN_toNat]; omega

/-! ### A word from its fields -/

theorem formatA_of_fields (w : Word) (op : Digit) (h : (digit1 w).val = op.val) : formatA op (addrField w) = w := by
  have := w.isLt
  apply BitVec.eq_of_toNat_eq; rw [formatA_toNat, addrField_toNat, ← h, digit1_val]; omega

theorem formatXK_of_fields (w : Word) (op : Digit) (kk : Byte) (h : (digit1 w).val = op.val)
    (hk : (byteField w).toNat = kk.toNat) : formatXK op (digit2 w) kk = w := by
  have := w.isLt
  apply BitVec.eq_of_toNat_eq
  rw [formatXK_toNat, digit2_val, ← h, ← hk, digit1_val, byteField_toNat]; omega

theorem formatXYN_of_fields (w : Word) (op n : Digit) (h : (digit1 w).val = op.val) (hn : (digit4 w).val = n.val) :
    formatXYN op (digit2 w) (digit3 w) n = w := by
  have := w.isLt
  apply BitVec.eq_of_toNat_eq
  rw [formatXYN_toNat, digit2_val, digit3_val, ← h, ← hn, digit1_val, digit4_val]; omega

/-- The two bytes of a word give the word (R45, R61). -/
@[simp] theorem wordOfBytes_highByte_lowByte (w : Word) : wordOfBytes (highByte w) (lowByte w) = w := by
  apply BitVec.eq_of_toNat_eq; rw [wordOfBytes_toNat, highByte_toNat, lowByte_toNat]; omega

/-! ### Masks (R62, R65) -/

theorem word_of_digits (w : Word) : formatXYN (digit1 w) (digit2 w) (digit3 w) (digit4 w) = w :=
  formatXYN_of_fields w _ _ rfl rfl

theorem digitBits_and_ones (d : Digit) : digitBits d &&& 0xF#4 = digitBits d := BitVec.and_allOnes

theorem and_digits (a b c d e f g h : BitVec 4) :
    (a ++ b ++ c ++ d) &&& (e ++ f ++ g ++ h) = (a &&& e) ++ (b &&& f) ++ (c &&& g) ++ (d &&& h) := by
  simp only [BitVec.and_append]

theorem mask_F000 (a b c d : Digit) : formatXYN a b c d &&& 0xF000#16 = formatXYN a 0 0 0 := by
  refine (and_digits (digitBits a) (digitBits b) (digitBits c) (digitBits d) 0xF#4 0x0#4 0x0#4 0x0#4).trans ?_
  simp only [digitBits_and_ones, BitVec.and_zero]
  rfl

theorem mask_F00F (a b c d : Digit) : formatXYN a b c d &&& 0xF00F#16 = formatXYN a 0 0 d := by
  refine (and_digits (digitBits a) (digitBits b) (digitBits c) (digitBits d) 0xF#4 0x0#4 0x0#4 0xF#4).trans ?_
  simp only [digitBits_and_ones, BitVec.and_zero]
  rfl

theorem mask_F0FF (a b c d : Digit) : formatXYN a b c d &&& 0xF0FF#16 = formatXYN a 0 c d := by
  refine (and_digits (digitBits a) (digitBits b) (digitBits c) (digitBits d) 0xF#4 0x0#4 0xF#4 0xF#4).trans ?_
  simp only [digitBits_and_ones, BitVec.and_zero]
  rfl

theorem word_mask_F000 (w : Word) : w &&& 0xF000#16 = formatXYN (digit1 w) 0 0 0 := by
  conv_lhs => rw [← word_of_digits w]
  exact mask_F000 _ _ _ _

theorem word_mask_F00F (w : Word) : w &&& 0xF00F#16 = formatXYN (digit1 w) 0 0 (digit4 w) := by
  conv_lhs => rw [← word_of_digits w]
  exact mask_F00F _ _ _ _

theorem word_mask_F0FF (w : Word) : w &&& 0xF0FF#16 = formatXYN (digit1 w) 0 (digit3 w) (digit4 w) := by
  conv_lhs => rw [← word_of_digits w]
  exact mask_F0FF _ _ _ _

/-! ### The decoder -/

/-- What a decoder can answer: an instruction, or the rejection of that very word. -/
theorem decode_cases (w : Word) : (∃ i, decode w = .instr i) ∨ decode w = .unsupportedOpcode w := by
  unfold decode decodeFamily0 decodeFamily8 decodeFamilyE decodeFamilyF
  split <;> (repeat' split) <;> first | exact .inr rfl | exact .inl ⟨_, rfl⟩

end Sys2Proof
end

