-- ==== Sys2Proof/Laws/Display.lean ====
section
/-!
SUPPORT. What a sprite draw does to each pixel and to the collision bit (spec/46_display.md R151, R152): the sequential draw of the
model equals the draw by the set of touched pixels.
-/
namespace Sys2Proof.Machine

@[simp] theorem Framebuffer.pixel_clear (px : Fin 64) (py : Fin 32) : Framebuffer.clear.pixel px py = false := by
  simp [Framebuffer.clear, Framebuffer.pixel]

theorem Framebuffer.pixel_flip (fb : Framebuffer) (x px : Fin 64) (y py : Fin 32) :
    (fb.flip x y).pixel px py = (fb.pixel px py ^^ decide (x = px ∧ y = py)) := by
  simp only [Framebuffer.flip, Framebuffer.pixel, Fin.getElem_fin, Vector.getElem_set, Fin.ext_iff]
  by_cases hy : y.val = py.val
  · by_cases hx : x.val = px.val <;> simp [hx, hy]
  · simp [hy]

/-- Two framebuffers with the same pixels are equal. -/
theorem Framebuffer.ext_pixel (f g : Framebuffer) (h : ∀ px py, f.pixel px py = g.pixel px py) : f = g :=
  Vector.ext fun y hy => Vector.ext fun x hx => h ⟨x, hx⟩ ⟨y, hy⟩

/-- The pixel lies in one of the first `count` columns of a sprite row drawn at `vx`, where the sprite's bit is 1. -/
def inColumns (vx : Nat) (b : Byte) (count : Nat) (px : Fin 64) : Bool :=
  (List.range count).any fun col => b.getLsbD (7 - col) && decide (screenColumn (vx + col) = px)

theorem inColumns_succ (vx : Nat) (b : Byte) (count : Nat) (px : Fin 64) :
    inColumns vx b (count + 1) px =
      (inColumns vx b count px || (b.getLsbD (7 - count) && decide (screenColumn (vx + count) = px))) := by
  simp [inColumns, List.range_succ]

/-- Columns fewer than 64 apart are different columns of the screen (R152). -/
theorem column_injective (vx a b : Nat) (ha : a < 64) (hb : b < 64)
    (h : screenColumn (vx + a) = screenColumn (vx + b)) : a = b := by
  simp only [screenColumn, Fin.mk.injEq] at h
  omega

/-- Rows fewer than 32 apart are different rows of the screen (R152). -/
theorem row_injective (vy a b : Nat) (ha : a < 32) (hb : b < 32)
    (h : screenRow (vy + a) = screenRow (vy + b)) : a = b := by
  simp only [screenRow, Fin.mk.injEq] at h
  omega

theorem inColumns_not_next (vx : Nat) (b : Byte) (count : Nat) (hc : count < 64) :
    inColumns vx b count (screenColumn (vx + count)) = false := by
  simp only [inColumns, List.any_eq_false, List.mem_range, Bool.and_eq_true, decide_eq_true_eq, not_and]
  intro col hcol _ h
  exact absurd (column_injective vx col count (by omega) hc h) (by omega)

/-- The first `count` columns of a sprite row. -/
def Canvas.drawColumns (c : Canvas) (vx : Nat) (py : Fin 32) (b : Byte) (count : Nat) : Canvas :=
  (List.range count).foldl (fun c col => if b.getLsbD (7 - col) then c.touch (screenColumn (vx + col)) py else c) c

theorem Canvas.drawColumns_succ (c : Canvas) (vx : Nat) (py : Fin 32) (b : Byte) (count : Nat) :
    c.drawColumns vx py b (count + 1) =
      if b.getLsbD (7 - count) then (c.drawColumns vx py b count).touch (screenColumn (vx + count)) py
      else c.drawColumns vx py b count := by
  simp [Canvas.drawColumns, List.range_succ]

theorem Canvas.drawColumns_pixel (c : Canvas) (vx : Nat) (py : Fin 32) (b : Byte) (px : Fin 64) (qy : Fin 32) :
    ∀ count, count ≤ 64 →
      (c.drawColumns vx py b count).1.pixel px qy =
        (c.1.pixel px qy ^^ (decide (py = qy) && inColumns vx b count px))
  | 0, _ => by simp [Canvas.drawColumns, inColumns]
  | count + 1, h => by
    have ih := Canvas.drawColumns_pixel c vx py b px qy count (by omega)
    rw [Canvas.drawColumns_succ, inColumns_succ]
    by_cases hb : b.getLsbD (7 - count)
    · simp only [hb, if_true, Canvas.touch, Framebuffer.pixel_flip, ih, Bool.true_and]
      by_cases hx : screenColumn (vx + count) = px
      · subst hx
        simp [inColumns_not_next vx b count (by omega)]
      · simp [hx]
    · simp [hb, ih]

theorem Canvas.drawColumns_collision (c : Canvas) (vx : Nat) (py : Fin 32) (b : Byte) :
    ∀ count, count ≤ 64 →
      ((c.drawColumns vx py b count).2 = true ↔
        c.2 = true ∨ ∃ px, inColumns vx b count px = true ∧ c.1.pixel px py = true)
  | 0, _ => by simp [Canvas.drawColumns, inColumns]
  | count + 1, h => by
    have ih := Canvas.drawColumns_collision c vx py b count (by omega)
    rw [Canvas.drawColumns_succ]
    by_cases hb : b.getLsbD (7 - count)
    · have hp := Canvas.drawColumns_pixel c vx py b (screenColumn (vx + count)) py count (by omega)
      rw [inColumns_not_next vx b count (by omega), Bool.and_false, Bool.xor_false] at hp
      simp only [hb, if_true, Canvas.touch, Bool.or_eq_true, ih, hp, inColumns_succ, Bool.true_and, decide_eq_true_eq,
        or_and_right, exists_or, exists_eq_left', or_assoc]
    · simp [hb, ih, inColumns_succ]

theorem Canvas.drawRow_eq (c : Canvas) (vx : Nat) (py : Fin 32) (b : Byte) :
    c.drawRow vx py b = c.drawColumns vx py b 8 := rfl

/-- The pixel is touched by the sprite `bytes` drawn at column `vx`, row `vy` (R151(a)): it lies where a sprite bit is 1. -/
def touched (vx vy : Nat) (bytes : List Byte) (px : Fin 64) (py : Fin 32) : Bool :=
  match bytes with
  | [] => false
  | b :: bs => (decide (screenRow vy = py) && inColumns vx b 8 px) || touched vx (vy + 1) bs px py

/-- A pixel is touched exactly when some row and some column of the sprite land on it with the bit set (R151). -/
theorem touched_iff (vx : Nat) (px : Fin 64) (py : Fin 32) : ∀ (bytes : List Byte) (vy : Nat),
    touched vx vy bytes px py = true ↔
      ∃ row, ∃ h : row < bytes.length, ∃ col, col < 8 ∧ bytes[row].getLsbD (7 - col) = true ∧
        screenColumn (vx + col) = px ∧ screenRow (vy + row) = py
  | [], vy => by simp [touched]
  | b :: bs, vy => by
    simp only [touched, Bool.or_eq_true, Bool.and_eq_true, decide_eq_true_eq, touched_iff vx px py bs (vy + 1),
      inColumns, List.any_eq_true, List.mem_range, List.length_cons]
    constructor
    · rintro (⟨hy, col, hc, hb, hx⟩ | ⟨row, hr, col, hc, hb, hx, hy⟩)
      · exact ⟨0, by omega, col, hc, by simpa using hb, hx, by simpa using hy⟩
      · exact ⟨row + 1, by omega, col, hc, by simpa using hb, hx, by rwa [Nat.add_assoc, Nat.add_comm 1 row] at hy⟩
    · rintro ⟨row, hr, col, hc, hb, hx, hy⟩
      cases row with
      | zero => exact .inl ⟨by simpa using hy, col, hc, by simpa using hb, hx⟩
      | succ row =>
        refine .inr ⟨row, by omega, col, hc, by simpa using hb, hx, ?_⟩
        rwa [Nat.add_assoc, Nat.add_comm 1 row]

/-- Later rows of a sprite of fewer than 32 rows never come back to its first row (R152). -/
theorem touched_not_first (vx vy : Nat) (bytes : List Byte) (px : Fin 64) (h : bytes.length < 32) :
    touched vx (vy + 1) bytes px (screenRow vy) = false := by
  rw [Bool.eq_false_iff]
  intro ht
  obtain ⟨row, hr, col, -, -, -, hy⟩ := (touched_iff vx px _ bytes (vy + 1)).mp ht
  have := row_injective vy (1 + row) 0 (by omega) (by omega) (by rw [← Nat.add_assoc]; simpa using hy)
  omega

/-- The draw, pixel by pixel: "new FB = old FB XOR the indicator of T" (R152). -/
theorem Canvas.drawRows_pixel (vx : Nat) (px : Fin 64) (py : Fin 32) : ∀ (bytes : List Byte) (c : Canvas) (vy : Nat),
    bytes.length < 32 →
      (c.drawRows vx vy bytes).1.pixel px py = (c.1.pixel px py ^^ touched vx vy bytes px py)
  | [], c, vy, _ => by simp [Canvas.drawRows, touched]
  | b :: bs, c, vy, h => by
    simp only [List.length_cons] at h
    rw [Canvas.drawRows, Canvas.drawRows_pixel vx px py bs _ (vy + 1) (by omega), Canvas.drawRow_eq,
      Canvas.drawColumns_pixel _ _ _ _ _ _ 8 (by omega), touched]
    by_cases hy : screenRow vy = py
    · subst hy
      simp [touched_not_first vx vy bs px (by omega)]
    · simp [hy]

/-- The collision bit: "some pixel of T is on in the old FB" (R152). -/
theorem Canvas.drawRows_collision (vx : Nat) : ∀ (bytes : List Byte) (c : Canvas) (vy : Nat), bytes.length < 32 →
    ((c.drawRows vx vy bytes).2 = true ↔
      c.2 = true ∨ ∃ px py, touched vx vy bytes px py = true ∧ c.1.pixel px py = true)
  | [], c, vy, _ => by simp [Canvas.drawRows, touched]
  | b :: bs, c, vy, h => by
    simp only [List.length_cons] at h
    rw [Canvas.drawRows, Canvas.drawRows_collision vx bs _ (vy + 1) (by omega), Canvas.drawRow_eq,
      Canvas.drawColumns_collision _ _ _ _ 8 (by omega), or_assoc]
    refine or_congr_right ⟨?_, ?_⟩
    · rintro (⟨px, ht, hp⟩ | ⟨px, py, ht, hp⟩)
      · exact ⟨px, screenRow vy, by simp [touched, ht], hp⟩
      · refine ⟨px, py, by simp [touched, ht], ?_⟩
        rw [Canvas.drawColumns_pixel _ _ _ _ _ _ 8 (by omega)] at hp
        by_cases hy : screenRow vy = py
        · subst hy
          rw [touched_not_first vx vy bs px (by omega)] at ht
          exact absurd ht (by decide)
        · simpa [hy] using hp
    · rintro ⟨px, py, ht, hp⟩
      by_cases hc : screenRow vy = py ∧ inColumns vx b 8 px = true
      · exact .inl ⟨px, hc.2, by rw [hc.1]; exact hp⟩
      · have ht' : touched vx (vy + 1) bs px py = true := by
          simp only [touched, Bool.or_eq_true, Bool.and_eq_true, decide_eq_true_eq] at ht
          exact ht.resolve_left hc
        refine .inr ⟨px, py, ht', ?_⟩
        rw [Canvas.drawColumns_pixel _ _ _ _ _ _ 8 (by omega), hp]
        by_cases hy : screenRow vy = py
        · have : inColumns vx b 8 px = false := by
            rw [Bool.eq_false_iff]; exact fun e => hc ⟨hy, e⟩
          simp [this]
        · simp [hy]

end Sys2Proof.Machine
end

