-- ==== Sys2Proof/Laws/Memory.lean ====
section
/-!
SUPPORT. The laws of memory: a read after a write, and the canonical form, which every memory operation keeps.
-/
namespace Sys2Proof.Machine

/-! ### Reads after writes -/

theorem Memory.peek_cons (a b : Nat) (v : Byte) (m : Memory) (h : m.peek a = Memory.blank a) :
    (Memory.cons a v m).peek b = if b = a then v else m.peek b := by
  unfold Memory.cons
  split <;> by_cases hb : b = a <;> simp_all [Memory.peek]

/-- A list whose addresses lie from `lo` on reads its reset content below `lo`. -/
theorem Memory.peek_below : ∀ (m : Memory) (lo a : Nat), Memory.wfFrom lo m = true → a < lo → m.peek a = Memory.blank a
  | [], _, _, _, _ => rfl
  | (b, w) :: m, lo, a, h, ha => by
    simp only [Memory.wfFrom, Bool.and_eq_true, decide_eq_true_eq] at h
    have hb : a ≠ b := by omega
    simpa [Memory.peek, hb] using Memory.peek_below m (b + 1) a h.2 (by omega)

/-- The canonical form from `lo` on holds from any lower bound. -/
theorem Memory.wfFrom_mono (m : Memory) (lo lo' : Nat) (h : Memory.wfFrom lo m = true) (hle : lo' ≤ lo) :
    Memory.wfFrom lo' m = true := by
  cases m with
  | nil => rfl
  | cons c m =>
    simp only [Memory.wfFrom, Bool.and_eq_true, decide_eq_true_eq] at h ⊢
    exact ⟨⟨⟨by omega, h.1.1.2⟩, h.1.2⟩, h.2⟩

theorem Memory.peek_insert (a b : Nat) (v : Byte) :
    ∀ (m : Memory) (lo : Nat), Memory.wfFrom lo m = true → (m.insert a v).peek b = if b = a then v else m.peek b
  | [], _, _ => by simpa [Memory.insert] using Memory.peek_cons a b v [] rfl
  | (c, w) :: m, lo, h => by
    have hw := h
    simp only [Memory.wfFrom, Bool.and_eq_true, decide_eq_true_eq] at h
    simp only [Memory.insert]
    split
    · rename_i hac
      exact Memory.peek_cons a b v _
        (Memory.peek_below _ c a (by simp [Memory.wfFrom, h.1.1.2, h.2]; simpa using h.1.2) hac)
    · split
      · rename_i hac
        subst hac
        rw [Memory.peek_cons a b v m (Memory.peek_below m (a + 1) a h.2 (by omega))]
        by_cases hb : b = a <;> simp [Memory.peek, hb]
      · rename_i hlt hne
        have ih := Memory.peek_insert a b v m (c + 1) h.2
        by_cases hbc : b = c
        · subst hbc
          have : b ≠ a := fun e => hne e.symm
          simp [Memory.peek, this]
        · simp [Memory.peek, hbc, ih]

theorem Memory.wfFrom_cons (a lo : Nat) (v : Byte) (m : Memory) (h : Memory.wfFrom (a + 1) m = true) (hlo : lo ≤ a)
    (ha : a < Config.memSize) : Memory.wfFrom lo (Memory.cons a v m) = true := by
  unfold Memory.cons
  split
  · exact Memory.wfFrom_mono m (a + 1) lo h (by omega)
  · rename_i hv
    simp only [Memory.wfFrom, Bool.and_eq_true, decide_eq_true_eq, bne_iff_ne, ne_eq]
    exact ⟨⟨⟨hlo, ha⟩, hv⟩, h⟩

theorem Memory.wfFrom_insert (a : Nat) (v : Byte) (ha : a < Config.memSize) :
    ∀ (m : Memory) (lo : Nat), Memory.wfFrom lo m = true → lo ≤ a → Memory.wfFrom lo (m.insert a v) = true
  | [], lo, _, hlo => Memory.wfFrom_cons a lo v [] rfl hlo ha
  | (c, w) :: m, lo, h, hlo => by
    have hw := h
    simp only [Memory.wfFrom, Bool.and_eq_true, decide_eq_true_eq] at h
    simp only [Memory.insert]
    split
    · rename_i hac
      refine Memory.wfFrom_cons a lo v _ ?_ hlo ha
      simp only [Memory.wfFrom, Bool.and_eq_true, decide_eq_true_eq]
      exact ⟨⟨⟨by omega, h.1.1.2⟩, h.1.2⟩, h.2⟩
    · split
      · rename_i hac
        subst hac
        exact Memory.wfFrom_cons a lo v m h.2 hlo ha
      · rename_i hlt hne
        simp only [Memory.wfFrom, Bool.and_eq_true, decide_eq_true_eq]
        exact ⟨h.1, Memory.wfFrom_insert a v ha m (c + 1) h.2 (by omega)⟩

/-- A write keeps the canonical form. -/
theorem Memory.wf_poke (m : Memory) (a : Nat) (v : Byte) (h : m.wf = true) : (m.poke a v).wf = true := by
  unfold Memory.poke
  split
  · rename_i ha
    exact Memory.wfFrom_insert a v ha m 0 h (by omega)
  · exact h

/-- "The write changes that one byte and nothing else" (R43). -/
theorem Memory.peek_poke (m : Memory) (a b : Nat) (v : Byte) (h : m.wf = true) (ha : a < Config.memSize) :
    (m.poke a v).peek b = if b = a then v else m.peek b := by
  simpa [Memory.poke, ha] using Memory.peek_insert a b v m 0 h

theorem Memory.wf_pokeSpan : ∀ (vs : List Byte) (m : Memory) (base : Nat), m.wf = true → (m.pokeSpan base vs).wf = true
  | [], _, _, h => h
  | v :: vs, m, base, h => Memory.wf_pokeSpan vs (m.poke base v) (base + 1) (Memory.wf_poke m base v h)

/-- What a span of writes leaves: the bytes at their addresses, every other byte as it was. -/
theorem Memory.peek_pokeSpan :
    ∀ (vs : List Byte) (m : Memory) (base a : Nat), m.wf = true → base + vs.length ≤ Config.memSize →
      (m.pokeSpan base vs).peek a = if h : base ≤ a ∧ a < base + vs.length then vs[a - base]'(by omega) else m.peek a
  | [], m, base, a, _, _ => by
    simp [Memory.pokeSpan]
  | v :: vs, m, base, a, hm, hb => by
    simp only [List.length_cons] at hb ⊢
    simp only [Memory.pokeSpan]
    rw [Memory.peek_pokeSpan vs _ (base + 1) a (Memory.wf_poke m base v hm) (by omega)]
    split
    · rename_i h
      rw [dif_pos (by omega)]
      have : a - base = (a - (base + 1)) + 1 := by omega
      simp [this]
    · rename_i h
      rw [Memory.peek_poke m base a v hm (by omega)]
      split
      · rename_i hab
        subst hab
        simp
      · rename_i hab
        rw [dif_neg (by omega)]

/-- A write of one byte leaves every other byte alone, in canonical form or not. -/
theorem Memory.peek_insert_other (a b : Nat) (v : Byte) (hb : b ≠ a) : ∀ m : Memory, (m.insert a v).peek b = m.peek b
  | [] => by simp only [Memory.insert, Memory.cons]; split <;> simp [Memory.peek, hb]
  | (c, w) :: m => by
    have ih := Memory.peek_insert_other a b v hb m
    simp only [Memory.insert, Memory.cons]
    split
    · split <;> simp [Memory.peek, hb]
    · split
      · rename_i hac
        subst hac
        split <;> simp [Memory.peek, hb]
      · simp [Memory.peek, ih]

/-- Outside the written span a read gives what it gave before, whatever the memory. -/
theorem Memory.peek_pokeSpan_outside (a : Nat) :
    ∀ (vs : List Byte) (m : Memory) (base : Nat), ¬ (base ≤ a ∧ a < base + vs.length) →
      (m.pokeSpan base vs).peek a = m.peek a
  | [], _, _, _ => rfl
  | v :: vs, m, base, ha => by
    simp only [List.length_cons] at ha
    rw [Memory.pokeSpan, Memory.peek_pokeSpan_outside a vs _ (base + 1) (by omega), Memory.poke]
    split
    · exact Memory.peek_insert_other base a v (by omega) m
    · rfl

/-! ### Spans read -/

@[simp] theorem Memory.length_peekSpan (m : Memory) (base count : Nat) : (m.peekSpan base count).length = count := by
  simp [Memory.peekSpan]

@[simp] theorem Memory.getElem_peekSpan (m : Memory) (base count k : Nat) (h : k < (m.peekSpan base count).length) :
    (m.peekSpan base count)[k] = m.peek (base + k) := by
  simp [Memory.peekSpan]

end Sys2Proof.Machine
end

