-- ==== Sys2Proof/Laws/State.lean ====
section
/-!
SUPPORT. What each update leaves in each field of the state, so that no proof unfolds a record update.
-/
namespace Sys2Proof.Machine

/-! ### State.setV: `V[x] <- b` -/

@[simp] theorem State.setV_v (s : State) (x : Reg) (b : Byte) : (s.setV x b).v = s.v.set x b := rfl
@[simp] theorem State.setV_pc (s : State) (x : Reg) (b : Byte) : (s.setV x b).pc = s.pc := rfl
@[simp] theorem State.setV_index (s : State) (x : Reg) (b : Byte) : (s.setV x b).index = s.index := rfl
@[simp] theorem State.setV_sp (s : State) (x : Reg) (b : Byte) : (s.setV x b).sp = s.sp := rfl
@[simp] theorem State.setV_stack (s : State) (x : Reg) (b : Byte) : (s.setV x b).stack = s.stack := rfl
@[simp] theorem State.setV_mem (s : State) (x : Reg) (b : Byte) : (s.setV x b).mem = s.mem := rfl
@[simp] theorem State.setV_fb (s : State) (x : Reg) (b : Byte) : (s.setV x b).fb = s.fb := rfl
@[simp] theorem State.setV_keys (s : State) (x : Reg) (b : Byte) : (s.setV x b).keys = s.keys := rfl
@[simp] theorem State.setV_dt (s : State) (x : Reg) (b : Byte) : (s.setV x b).dt = s.dt := rfl
@[simp] theorem State.setV_st (s : State) (x : Reg) (b : Byte) : (s.setV x b).st = s.st := rfl
@[simp] theorem State.setV_halt (s : State) (x : Reg) (b : Byte) : (s.setV x b).halt = s.halt := rfl
@[simp] theorem State.setV_draws (s : State) (x : Reg) (b : Byte) : (s.setV x b).draws = s.draws := rfl

/-! ### State.setPc: `pc <- target` -/

@[simp] theorem State.setPc_v (s : State) (target : Word) : (s.setPc target).v = s.v := rfl
@[simp] theorem State.setPc_pc (s : State) (target : Word) : (s.setPc target).pc = target := rfl
@[simp] theorem State.setPc_index (s : State) (target : Word) : (s.setPc target).index = s.index := rfl
@[simp] theorem State.setPc_sp (s : State) (target : Word) : (s.setPc target).sp = s.sp := rfl
@[simp] theorem State.setPc_stack (s : State) (target : Word) : (s.setPc target).stack = s.stack := rfl
@[simp] theorem State.setPc_mem (s : State) (target : Word) : (s.setPc target).mem = s.mem := rfl
@[simp] theorem State.setPc_fb (s : State) (target : Word) : (s.setPc target).fb = s.fb := rfl
@[simp] theorem State.setPc_keys (s : State) (target : Word) : (s.setPc target).keys = s.keys := rfl
@[simp] theorem State.setPc_dt (s : State) (target : Word) : (s.setPc target).dt = s.dt := rfl
@[simp] theorem State.setPc_st (s : State) (target : Word) : (s.setPc target).st = s.st := rfl
@[simp] theorem State.setPc_halt (s : State) (target : Word) : (s.setPc target).halt = s.halt := rfl
@[simp] theorem State.setPc_draws (s : State) (target : Word) : (s.setPc target).draws = s.draws := rfl

/-! ### State.setIndex: `I <- a` -/

@[simp] theorem State.setIndex_v (s : State) (a : Word) : (s.setIndex a).v = s.v := rfl
@[simp] theorem State.setIndex_pc (s : State) (a : Word) : (s.setIndex a).pc = s.pc := rfl
@[simp] theorem State.setIndex_index (s : State) (a : Word) : (s.setIndex a).index = a := rfl
@[simp] theorem State.setIndex_sp (s : State) (a : Word) : (s.setIndex a).sp = s.sp := rfl
@[simp] theorem State.setIndex_stack (s : State) (a : Word) : (s.setIndex a).stack = s.stack := rfl
@[simp] theorem State.setIndex_mem (s : State) (a : Word) : (s.setIndex a).mem = s.mem := rfl
@[simp] theorem State.setIndex_fb (s : State) (a : Word) : (s.setIndex a).fb = s.fb := rfl
@[simp] theorem State.setIndex_keys (s : State) (a : Word) : (s.setIndex a).keys = s.keys := rfl
@[simp] theorem State.setIndex_dt (s : State) (a : Word) : (s.setIndex a).dt = s.dt := rfl
@[simp] theorem State.setIndex_st (s : State) (a : Word) : (s.setIndex a).st = s.st := rfl
@[simp] theorem State.setIndex_halt (s : State) (a : Word) : (s.setIndex a).halt = s.halt := rfl
@[simp] theorem State.setIndex_draws (s : State) (a : Word) : (s.setIndex a).draws = s.draws := rfl

/-! ### State.setDT: `DT <- b` -/

@[simp] theorem State.setDT_v (s : State) (b : Byte) : (s.setDT b).v = s.v := rfl
@[simp] theorem State.setDT_pc (s : State) (b : Byte) : (s.setDT b).pc = s.pc := rfl
@[simp] theorem State.setDT_index (s : State) (b : Byte) : (s.setDT b).index = s.index := rfl
@[simp] theorem State.setDT_sp (s : State) (b : Byte) : (s.setDT b).sp = s.sp := rfl
@[simp] theorem State.setDT_stack (s : State) (b : Byte) : (s.setDT b).stack = s.stack := rfl
@[simp] theorem State.setDT_mem (s : State) (b : Byte) : (s.setDT b).mem = s.mem := rfl
@[simp] theorem State.setDT_fb (s : State) (b : Byte) : (s.setDT b).fb = s.fb := rfl
@[simp] theorem State.setDT_keys (s : State) (b : Byte) : (s.setDT b).keys = s.keys := rfl
@[simp] theorem State.setDT_dt (s : State) (b : Byte) : (s.setDT b).dt = b := rfl
@[simp] theorem State.setDT_st (s : State) (b : Byte) : (s.setDT b).st = s.st := rfl
@[simp] theorem State.setDT_halt (s : State) (b : Byte) : (s.setDT b).halt = s.halt := rfl
@[simp] theorem State.setDT_draws (s : State) (b : Byte) : (s.setDT b).draws = s.draws := rfl

/-! ### State.setST: `ST <- b` -/

@[simp] theorem State.setST_v (s : State) (b : Byte) : (s.setST b).v = s.v := rfl
@[simp] theorem State.setST_pc (s : State) (b : Byte) : (s.setST b).pc = s.pc := rfl
@[simp] theorem State.setST_index (s : State) (b : Byte) : (s.setST b).index = s.index := rfl
@[simp] theorem State.setST_sp (s : State) (b : Byte) : (s.setST b).sp = s.sp := rfl
@[simp] theorem State.setST_stack (s : State) (b : Byte) : (s.setST b).stack = s.stack := rfl
@[simp] theorem State.setST_mem (s : State) (b : Byte) : (s.setST b).mem = s.mem := rfl
@[simp] theorem State.setST_fb (s : State) (b : Byte) : (s.setST b).fb = s.fb := rfl
@[simp] theorem State.setST_keys (s : State) (b : Byte) : (s.setST b).keys = s.keys := rfl
@[simp] theorem State.setST_dt (s : State) (b : Byte) : (s.setST b).dt = s.dt := rfl
@[simp] theorem State.setST_st (s : State) (b : Byte) : (s.setST b).st = b := rfl
@[simp] theorem State.setST_halt (s : State) (b : Byte) : (s.setST b).halt = s.halt := rfl
@[simp] theorem State.setST_draws (s : State) (b : Byte) : (s.setST b).draws = s.draws := rfl

/-! ### State.setFB: `FB` -/

@[simp] theorem State.setFB_v (s : State) (fb : Framebuffer) : (s.setFB fb).v = s.v := rfl
@[simp] theorem State.setFB_pc (s : State) (fb : Framebuffer) : (s.setFB fb).pc = s.pc := rfl
@[simp] theorem State.setFB_index (s : State) (fb : Framebuffer) : (s.setFB fb).index = s.index := rfl
@[simp] theorem State.setFB_sp (s : State) (fb : Framebuffer) : (s.setFB fb).sp = s.sp := rfl
@[simp] theorem State.setFB_stack (s : State) (fb : Framebuffer) : (s.setFB fb).stack = s.stack := rfl
@[simp] theorem State.setFB_mem (s : State) (fb : Framebuffer) : (s.setFB fb).mem = s.mem := rfl
@[simp] theorem State.setFB_fb (s : State) (fb : Framebuffer) : (s.setFB fb).fb = fb := rfl
@[simp] theorem State.setFB_keys (s : State) (fb : Framebuffer) : (s.setFB fb).keys = s.keys := rfl
@[simp] theorem State.setFB_dt (s : State) (fb : Framebuffer) : (s.setFB fb).dt = s.dt := rfl
@[simp] theorem State.setFB_st (s : State) (fb : Framebuffer) : (s.setFB fb).st = s.st := rfl
@[simp] theorem State.setFB_halt (s : State) (fb : Framebuffer) : (s.setFB fb).halt = s.halt := rfl
@[simp] theorem State.setFB_draws (s : State) (fb : Framebuffer) : (s.setFB fb).draws = s.draws := rfl

/-! ### State.setStack: `SP`, `STACK` -/

@[simp] theorem State.setStack_v (s : State) (sp : Fin 17) (stack : Vector Word 16) : (s.setStack sp stack).v = s.v := rfl
@[simp] theorem State.setStack_pc (s : State) (sp : Fin 17) (stack : Vector Word 16) : (s.setStack sp stack).pc = s.pc := rfl
@[simp] theorem State.setStack_index (s : State) (sp : Fin 17) (stack : Vector Word 16) : (s.setStack sp stack).index = s.index := rfl
@[simp] theorem State.setStack_sp (s : State) (sp : Fin 17) (stack : Vector Word 16) : (s.setStack sp stack).sp = sp := rfl
@[simp] theorem State.setStack_stack (s : State) (sp : Fin 17) (stack : Vector Word 16) : (s.setStack sp stack).stack = stack := rfl
@[simp] theorem State.setStack_mem (s : State) (sp : Fin 17) (stack : Vector Word 16) : (s.setStack sp stack).mem = s.mem := rfl
@[simp] theorem State.setStack_fb (s : State) (sp : Fin 17) (stack : Vector Word 16) : (s.setStack sp stack).fb = s.fb := rfl
@[simp] theorem State.setStack_keys (s : State) (sp : Fin 17) (stack : Vector Word 16) : (s.setStack sp stack).keys = s.keys := rfl
@[simp] theorem State.setStack_dt (s : State) (sp : Fin 17) (stack : Vector Word 16) : (s.setStack sp stack).dt = s.dt := rfl
@[simp] theorem State.setStack_st (s : State) (sp : Fin 17) (stack : Vector Word 16) : (s.setStack sp stack).st = s.st := rfl
@[simp] theorem State.setStack_halt (s : State) (sp : Fin 17) (stack : Vector Word 16) : (s.setStack sp stack).halt = s.halt := rfl
@[simp] theorem State.setStack_draws (s : State) (sp : Fin 17) (stack : Vector Word 16) : (s.setStack sp stack).draws = s.draws := rfl

/-! ### State.advance: `pc <- npc` -/

@[simp] theorem State.advance_v (s : State) : (s.advance).v = s.v := rfl
@[simp] theorem State.advance_pc (s : State) : (s.advance).pc = s.pc + 2 := rfl
@[simp] theorem State.advance_index (s : State) : (s.advance).index = s.index := rfl
@[simp] theorem State.advance_sp (s : State) : (s.advance).sp = s.sp := rfl
@[simp] theorem State.advance_stack (s : State) : (s.advance).stack = s.stack := rfl
@[simp] theorem State.advance_mem (s : State) : (s.advance).mem = s.mem := rfl
@[simp] theorem State.advance_fb (s : State) : (s.advance).fb = s.fb := rfl
@[simp] theorem State.advance_keys (s : State) : (s.advance).keys = s.keys := rfl
@[simp] theorem State.advance_dt (s : State) : (s.advance).dt = s.dt := rfl
@[simp] theorem State.advance_st (s : State) : (s.advance).st = s.st := rfl
@[simp] theorem State.advance_halt (s : State) : (s.advance).halt = s.halt := rfl
@[simp] theorem State.advance_draws (s : State) : (s.advance).draws = s.draws := rfl

/-! ### State.skipIf: the skip rule -/

@[simp] theorem State.skipIf_v (s : State) (c : Bool) : (s.skipIf c).v = s.v := by cases c <;> rfl
@[simp] theorem State.skipIf_pc (s : State) (c : Bool) : (s.skipIf c).pc = if c then s.pc + 2 + 2 else s.pc + 2 := by cases c <;> rfl
@[simp] theorem State.skipIf_index (s : State) (c : Bool) : (s.skipIf c).index = s.index := by cases c <;> rfl
@[simp] theorem State.skipIf_sp (s : State) (c : Bool) : (s.skipIf c).sp = s.sp := by cases c <;> rfl
@[simp] theorem State.skipIf_stack (s : State) (c : Bool) : (s.skipIf c).stack = s.stack := by cases c <;> rfl
@[simp] theorem State.skipIf_mem (s : State) (c : Bool) : (s.skipIf c).mem = s.mem := by cases c <;> rfl
@[simp] theorem State.skipIf_fb (s : State) (c : Bool) : (s.skipIf c).fb = s.fb := by cases c <;> rfl
@[simp] theorem State.skipIf_keys (s : State) (c : Bool) : (s.skipIf c).keys = s.keys := by cases c <;> rfl
@[simp] theorem State.skipIf_dt (s : State) (c : Bool) : (s.skipIf c).dt = s.dt := by cases c <;> rfl
@[simp] theorem State.skipIf_st (s : State) (c : Bool) : (s.skipIf c).st = s.st := by cases c <;> rfl
@[simp] theorem State.skipIf_halt (s : State) (c : Bool) : (s.skipIf c).halt = s.halt := by cases c <;> rfl
@[simp] theorem State.skipIf_draws (s : State) (c : Bool) : (s.skipIf c).draws = s.draws := by cases c <;> rfl

/-! ### State.latch: taking a fault -/

@[simp] theorem State.latch_v (s : State) (cause : FaultCause) (w : Option Word) (info : Nat) : (s.latch cause w info).v = s.v := rfl
@[simp] theorem State.latch_pc (s : State) (cause : FaultCause) (w : Option Word) (info : Nat) : (s.latch cause w info).pc = s.pc := rfl
@[simp] theorem State.latch_index (s : State) (cause : FaultCause) (w : Option Word) (info : Nat) : (s.latch cause w info).index = s.index := rfl
@[simp] theorem State.latch_sp (s : State) (cause : FaultCause) (w : Option Word) (info : Nat) : (s.latch cause w info).sp = s.sp := rfl
@[simp] theorem State.latch_stack (s : State) (cause : FaultCause) (w : Option Word) (info : Nat) : (s.latch cause w info).stack = s.stack := rfl
@[simp] theorem State.latch_mem (s : State) (cause : FaultCause) (w : Option Word) (info : Nat) : (s.latch cause w info).mem = s.mem := rfl
@[simp] theorem State.latch_fb (s : State) (cause : FaultCause) (w : Option Word) (info : Nat) : (s.latch cause w info).fb = s.fb := rfl
@[simp] theorem State.latch_keys (s : State) (cause : FaultCause) (w : Option Word) (info : Nat) : (s.latch cause w info).keys = s.keys := rfl
@[simp] theorem State.latch_dt (s : State) (cause : FaultCause) (w : Option Word) (info : Nat) : (s.latch cause w info).dt = s.dt := rfl
@[simp] theorem State.latch_st (s : State) (cause : FaultCause) (w : Option Word) (info : Nat) : (s.latch cause w info).st = s.st := rfl
@[simp] theorem State.latch_halt (s : State) (cause : FaultCause) (w : Option Word) (info : Nat) : (s.latch cause w info).halt = some { cause := cause, pc0 := s.pc, word := w, info := info } := rfl
@[simp] theorem State.latch_draws (s : State) (cause : FaultCause) (w : Option Word) (info : Nat) : (s.latch cause w info).draws = s.draws := rfl

/-! ### State.store: a store at `I` -/

@[simp] theorem State.store_v (s : State) (bytes : List Byte) : (s.store bytes).v = s.v := rfl
@[simp] theorem State.store_pc (s : State) (bytes : List Byte) : (s.store bytes).pc = s.pc := rfl
@[simp] theorem State.store_index (s : State) (bytes : List Byte) : (s.store bytes).index = s.index := rfl
@[simp] theorem State.store_sp (s : State) (bytes : List Byte) : (s.store bytes).sp = s.sp := rfl
@[simp] theorem State.store_stack (s : State) (bytes : List Byte) : (s.store bytes).stack = s.stack := rfl
@[simp] theorem State.store_mem (s : State) (bytes : List Byte) : (s.store bytes).mem = s.mem.pokeSpan s.index.toNat bytes := rfl
@[simp] theorem State.store_fb (s : State) (bytes : List Byte) : (s.store bytes).fb = s.fb := rfl
@[simp] theorem State.store_keys (s : State) (bytes : List Byte) : (s.store bytes).keys = s.keys := rfl
@[simp] theorem State.store_dt (s : State) (bytes : List Byte) : (s.store bytes).dt = s.dt := rfl
@[simp] theorem State.store_st (s : State) (bytes : List Byte) : (s.store bytes).st = s.st := rfl
@[simp] theorem State.store_halt (s : State) (bytes : List Byte) : (s.store bytes).halt = s.halt := rfl
@[simp] theorem State.store_draws (s : State) (bytes : List Byte) : (s.store bytes).draws = s.draws := rfl

/-! ### State.drawn: a free value taken -/

@[simp] theorem State.drawn_v (s : State) : (s.drawn).v = s.v := rfl
@[simp] theorem State.drawn_pc (s : State) : (s.drawn).pc = s.pc := rfl
@[simp] theorem State.drawn_index (s : State) : (s.drawn).index = s.index := rfl
@[simp] theorem State.drawn_sp (s : State) : (s.drawn).sp = s.sp := rfl
@[simp] theorem State.drawn_stack (s : State) : (s.drawn).stack = s.stack := rfl
@[simp] theorem State.drawn_mem (s : State) : (s.drawn).mem = s.mem := rfl
@[simp] theorem State.drawn_fb (s : State) : (s.drawn).fb = s.fb := rfl
@[simp] theorem State.drawn_keys (s : State) : (s.drawn).keys = s.keys := rfl
@[simp] theorem State.drawn_dt (s : State) : (s.drawn).dt = s.dt := rfl
@[simp] theorem State.drawn_st (s : State) : (s.drawn).st = s.st := rfl
@[simp] theorem State.drawn_halt (s : State) : (s.drawn).halt = s.halt := rfl
@[simp] theorem State.drawn_draws (s : State) : (s.drawn).draws = s.draws + 1 := rfl

/-! ### State.loadRegisters: Fx65's registers -/

@[simp] theorem State.loadRegisters_v (s : State) (x : Reg) : (s.loadRegisters x).v = Vector.ofFn fun k => if k.val ≤ x.val then s.peek (s.index.toNat + k.val) else s.v[k] := rfl
@[simp] theorem State.loadRegisters_pc (s : State) (x : Reg) : (s.loadRegisters x).pc = s.pc := rfl
@[simp] theorem State.loadRegisters_index (s : State) (x : Reg) : (s.loadRegisters x).index = s.index := rfl
@[simp] theorem State.loadRegisters_sp (s : State) (x : Reg) : (s.loadRegisters x).sp = s.sp := rfl
@[simp] theorem State.loadRegisters_stack (s : State) (x : Reg) : (s.loadRegisters x).stack = s.stack := rfl
@[simp] theorem State.loadRegisters_mem (s : State) (x : Reg) : (s.loadRegisters x).mem = s.mem := rfl
@[simp] theorem State.loadRegisters_fb (s : State) (x : Reg) : (s.loadRegisters x).fb = s.fb := rfl
@[simp] theorem State.loadRegisters_keys (s : State) (x : Reg) : (s.loadRegisters x).keys = s.keys := rfl
@[simp] theorem State.loadRegisters_dt (s : State) (x : Reg) : (s.loadRegisters x).dt = s.dt := rfl
@[simp] theorem State.loadRegisters_st (s : State) (x : Reg) : (s.loadRegisters x).st = s.st := rfl
@[simp] theorem State.loadRegisters_halt (s : State) (x : Reg) : (s.loadRegisters x).halt = s.halt := rfl
@[simp] theorem State.loadRegisters_draws (s : State) (x : Reg) : (s.loadRegisters x).draws = s.draws := rfl

/-! ### State.tickTimers: `tick_timers()` -/

@[simp] theorem State.tickTimers_v (s : State) : (s.tickTimers).v = s.v := rfl
@[simp] theorem State.tickTimers_pc (s : State) : (s.tickTimers).pc = s.pc := rfl
@[simp] theorem State.tickTimers_index (s : State) : (s.tickTimers).index = s.index := rfl
@[simp] theorem State.tickTimers_sp (s : State) : (s.tickTimers).sp = s.sp := rfl
@[simp] theorem State.tickTimers_stack (s : State) : (s.tickTimers).stack = s.stack := rfl
@[simp] theorem State.tickTimers_mem (s : State) : (s.tickTimers).mem = s.mem := rfl
@[simp] theorem State.tickTimers_fb (s : State) : (s.tickTimers).fb = s.fb := rfl
@[simp] theorem State.tickTimers_keys (s : State) : (s.tickTimers).keys = s.keys := rfl
@[simp] theorem State.tickTimers_dt (s : State) : (s.tickTimers).dt = tickTimer s.dt := rfl
@[simp] theorem State.tickTimers_st (s : State) : (s.tickTimers).st = tickTimer s.st := rfl
@[simp] theorem State.tickTimers_halt (s : State) : (s.tickTimers).halt = s.halt := rfl
@[simp] theorem State.tickTimers_draws (s : State) : (s.tickTimers).draws = s.draws := rfl

/-! ### Reads of single registers, bytes and keys -/

theorem State.getV_eq (s : State) (x : Reg) : s.getV x = s.v[x] := rfl

theorem State.peek_eq (s : State) (a : Nat) : s.peek a = s.mem.peek a := rfl

/-- "No register is hardwired: every one of the 16 holds whatever was last written to it" (R10). The statement for the provers says
this of the host's accesses too. -/
theorem State.getV_setV (s : State) (x r : Reg) (b : Byte) :
    (s.setV x b).getV r = if r = x then b else s.getV r := by
  simp only [State.getV, State.setV_v, Fin.getElem_fin, Vector.getElem_set, Fin.ext_iff]
  split <;> split <;> first | rfl | omega

@[simp] theorem State.getV_setV_same (s : State) (x : Reg) (b : Byte) : (s.setV x b).getV x = b := by
  rw [State.getV_setV, if_pos rfl]

@[simp] theorem State.getV_setV_other (s : State) (x r : Reg) (b : Byte) (h : r ≠ x) : (s.setV x b).getV r = s.getV r := by
  rw [State.getV_setV, if_neg h]

@[simp] theorem State.setV_peek (s : State) (x : Reg) (b : Byte) (a : Nat) : (s.setV x b).peek a = s.peek a := rfl
@[simp] theorem State.setV_key (s : State) (x : Reg) (b : Byte) (k : Fin 16) : (s.setV x b).key k = s.key k := rfl
@[simp] theorem State.setPc_getV (s : State) (target : Word) (r : Reg) : (s.setPc target).getV r = s.getV r := rfl
@[simp] theorem State.setPc_peek (s : State) (target : Word) (a : Nat) : (s.setPc target).peek a = s.peek a := rfl
@[simp] theorem State.setPc_key (s : State) (target : Word) (k : Fin 16) : (s.setPc target).key k = s.key k := rfl
@[simp] theorem State.setIndex_getV (s : State) (a : Word) (r : Reg) : (s.setIndex a).getV r = s.getV r := rfl
@[simp] theorem State.setIndex_peek (s : State) (i : Word) (a : Nat) : (s.setIndex i).peek a = s.peek a := rfl
@[simp] theorem State.setIndex_key (s : State) (a : Word) (k : Fin 16) : (s.setIndex a).key k = s.key k := rfl
@[simp] theorem State.setDT_getV (s : State) (b : Byte) (r : Reg) : (s.setDT b).getV r = s.getV r := rfl
@[simp] theorem State.setDT_peek (s : State) (b : Byte) (a : Nat) : (s.setDT b).peek a = s.peek a := rfl
@[simp] theorem State.setDT_key (s : State) (b : Byte) (k : Fin 16) : (s.setDT b).key k = s.key k := rfl
@[simp] theorem State.setST_getV (s : State) (b : Byte) (r : Reg) : (s.setST b).getV r = s.getV r := rfl
@[simp] theorem State.setST_peek (s : State) (b : Byte) (a : Nat) : (s.setST b).peek a = s.peek a := rfl
@[simp] theorem State.setST_key (s : State) (b : Byte) (k : Fin 16) : (s.setST b).key k = s.key k := rfl
@[simp] theorem State.setFB_getV (s : State) (fb : Framebuffer) (r : Reg) : (s.setFB fb).getV r = s.getV r := rfl
@[simp] theorem State.setFB_peek (s : State) (fb : Framebuffer) (a : Nat) : (s.setFB fb).peek a = s.peek a := rfl
@[simp] theorem State.setFB_key (s : State) (fb : Framebuffer) (k : Fin 16) : (s.setFB fb).key k = s.key k := rfl
@[simp] theorem State.setStack_getV (s : State) (sp : Fin 17) (stack : Vector Word 16) (r : Reg) : (s.setStack sp stack).getV r = s.getV r := rfl
@[simp] theorem State.setStack_peek (s : State) (sp : Fin 17) (stack : Vector Word 16) (a : Nat) : (s.setStack sp stack).peek a = s.peek a := rfl
@[simp] theorem State.setStack_key (s : State) (sp : Fin 17) (stack : Vector Word 16) (k : Fin 16) : (s.setStack sp stack).key k = s.key k := rfl
@[simp] theorem State.advance_getV (s : State) (r : Reg) : (s.advance).getV r = s.getV r := rfl
@[simp] theorem State.advance_peek (s : State) (a : Nat) : (s.advance).peek a = s.peek a := rfl
@[simp] theorem State.advance_key (s : State) (k : Fin 16) : (s.advance).key k = s.key k := rfl
@[simp] theorem State.skipIf_getV (s : State) (c : Bool) (r : Reg) : (s.skipIf c).getV r = s.getV r := by cases c <;> rfl
@[simp] theorem State.skipIf_peek (s : State) (c : Bool) (a : Nat) : (s.skipIf c).peek a = s.peek a := by cases c <;> rfl
@[simp] theorem State.skipIf_key (s : State) (c : Bool) (k : Fin 16) : (s.skipIf c).key k = s.key k := by cases c <;> rfl
@[simp] theorem State.latch_getV (s : State) (cause : FaultCause) (w : Option Word) (info : Nat) (r : Reg) : (s.latch cause w info).getV r = s.getV r := rfl
@[simp] theorem State.latch_peek (s : State) (cause : FaultCause) (w : Option Word) (info : Nat) (a : Nat) : (s.latch cause w info).peek a = s.peek a := rfl
@[simp] theorem State.latch_key (s : State) (cause : FaultCause) (w : Option Word) (info : Nat) (k : Fin 16) : (s.latch cause w info).key k = s.key k := rfl
@[simp] theorem State.store_getV (s : State) (bytes : List Byte) (r : Reg) : (s.store bytes).getV r = s.getV r := rfl
@[simp] theorem State.store_key (s : State) (bytes : List Byte) (k : Fin 16) : (s.store bytes).key k = s.key k := rfl
@[simp] theorem State.drawn_getV (s : State) (r : Reg) : (s.drawn).getV r = s.getV r := rfl
@[simp] theorem State.drawn_peek (s : State) (a : Nat) : (s.drawn).peek a = s.peek a := rfl
@[simp] theorem State.drawn_key (s : State) (k : Fin 16) : (s.drawn).key k = s.key k := rfl
@[simp] theorem State.loadRegisters_peek (s : State) (x : Reg) (a : Nat) : (s.loadRegisters x).peek a = s.peek a := rfl
@[simp] theorem State.loadRegisters_key (s : State) (x : Reg) (k : Fin 16) : (s.loadRegisters x).key k = s.key k := rfl
@[simp] theorem State.tickTimers_getV (s : State) (r : Reg) : (s.tickTimers).getV r = s.getV r := rfl
@[simp] theorem State.tickTimers_peek (s : State) (a : Nat) : (s.tickTimers).peek a = s.peek a := rfl
@[simp] theorem State.tickTimers_key (s : State) (k : Fin 16) : (s.tickTimers).key k = s.key k := rfl

@[simp] theorem State.store_peek (s : State) (bytes : List Byte) (a : Nat) :
    (s.store bytes).peek a = (s.mem.pokeSpan s.index.toNat bytes).peek a := rfl

@[simp] theorem State.loadRegisters_getV (s : State) (x r : Reg) :
    (s.loadRegisters x).getV r = if r.val ≤ x.val then s.peek (s.index.toNat + r.val) else s.getV r := by
  simp [State.getV]

end Sys2Proof.Machine
end

