-- ==== Sys2Proof/Laws/Ops.lean ====
section
/-!
SUPPORT. One lemma per shared operation that says everything it can do: stack, range check, key operand, key scan, flags, stores,
fetch, host calls. Proofs about instructions cite these.
-/
namespace Sys2Proof.Machine

/-! ### Stack (R19, R20) -/

theorem State.push?_of_lt (s : State) (value : Word) (h : s.sp.val < 16) :
    s.push? value = some (s.setStack ⟨s.sp.val + 1, by omega⟩ (s.stack.set s.sp.val value)) := dif_pos h

theorem State.push?_full (s : State) (value : Word) (h : s.sp.val = 16) : s.push? value = none :=
  dif_neg (by omega)

theorem State.pop?_of_pos (s : State) (h : 0 < s.sp.val) :
    s.pop? = some (s.stack[s.sp.val - 1], s.setStack ⟨s.sp.val - 1, by omega⟩ s.stack) := dif_pos h

theorem State.pop?_empty (s : State) (h : s.sp.val = 0) : s.pop? = none := dif_neg (by omega)

/-- What a push can do: it answers a state whose stack holds the value at the old `SP`, or none, and then the stack is full. -/
theorem State.push?_cases (s : State) (value : Word) :
    (∃ h : s.sp.val < 16,
      s.push? value = some (s.setStack ⟨s.sp.val + 1, by omega⟩ (s.stack.set s.sp.val value))) ∨
    (s.sp.val = 16 ∧ s.push? value = none) := by
  rcases Nat.lt_or_ge s.sp.val 16 with h | h
  · exact .inl ⟨h, s.push?_of_lt value h⟩
  · exact .inr ⟨by omega, s.push?_full value (by omega)⟩

/-- What a pop can do: it answers the most recently pushed entry, or none, and then the stack is empty. -/
theorem State.pop?_cases (s : State) :
    (∃ h : 0 < s.sp.val,
      s.pop? = some (s.stack[s.sp.val - 1], s.setStack ⟨s.sp.val - 1, by omega⟩ s.stack)) ∨
    (s.sp.val = 0 ∧ s.pop? = none) := by
  rcases Nat.eq_zero_or_pos s.sp.val with h | h
  · exact .inr ⟨h, s.pop?_empty h⟩
  · exact .inl ⟨h, s.pop?_of_pos h⟩

/-! ### Range check (R44) -/

/-- The check passes exactly when no byte is accessed or the highest address exists. -/
theorem State.offending_eq_none (s : State) (count : Nat) :
    s.offending count = none ↔ count = 0 ∨ s.index.toNat + count ≤ Config.memSize := by
  simp only [State.offending, Config.memSize]
  split
  · simp; omega
  · simp; omega

/-- A failed check names the lowest of the accessed addresses that exceeds 0xFFF. -/
theorem State.offending_eq_some (s : State) (count a : Nat) :
    s.offending count = some a ↔
      0 < count ∧ Config.memSize < s.index.toNat + count ∧ a = max s.index.toNat 0x1000 := by
  simp only [State.offending, Config.memSize]
  split
  · simp; omega
  · simp; omega

/-! ### Keys (R144, R147) -/

theorem State.keyOperand_of_lt (s : State) (x : Reg) (h : (s.getV x).toNat < 16) :
    s.keyOperand x = some ⟨(s.getV x).toNat, h⟩ := dif_pos h

theorem State.keyOperand_of_ge (s : State) (x : Reg) (h : 16 ≤ (s.getV x).toNat) : s.keyOperand x = none :=
  dif_neg (by omega)

theorem State.firstKey_eq_none (s : State) : s.firstKey = none ↔ ∀ k, s.key k = false := by
  simp [State.firstKey]

/-- The scan answers the least pressed key (R144). -/
theorem State.firstKey_eq_some (s : State) (k : Fin 16) :
    s.firstKey = some k ↔ s.key k = true ∧ ∀ j, j < k → s.key j = false := by
  simp only [State.firstKey, List.find?_eq_some_iff_getElem, List.getElem_finRange, List.length_finRange]
  constructor
  · rintro ⟨hk, i, hi, rfl, hlt⟩
    refine ⟨hk, fun j hj => ?_⟩
    have := hlt j.val (by simpa [Fin.lt_def] using hj)
    simpa using this
  · rintro ⟨hk, hlt⟩
    refine ⟨hk, k.val, by simp, by simp, fun j hj => ?_⟩
    have := hlt ⟨j, by omega⟩ (by simpa [Fin.lt_def] using hj)
    simpa using this

/-! ### Flags (R11, R122) -/

/-- The core writes "exactly 0x00 or 0x01" (R11). -/
theorem flagByte_cases (b : Bool) : flagByte b = 0x00#8 ∧ b = false ∨ flagByte b = 0x01#8 ∧ b = true := by
  cases b <;> simp [flagByte]

/-- Under the decided treatment nothing more happens to VF. -/
theorem State.settleVF_eq (s : State) (x : Reg) : s.settleVF x = s := rfl

/-- The result, then the flag: with `x = 0xF` the flag survives (R122). -/
theorem State.resultThenFlag_eq (s : State) (x : Reg) (result : Byte) (flag : Bool) :
    s.resultThenFlag x result flag = (s.setV x result).setV Reg.vf (flagByte flag) := rfl

/-- The flag, then the result: with `x = 0xF` the result survives (R122). -/
theorem State.flagThenResult_eq (s : State) (x : Reg) (result : Byte) (flag : Bool) :
    s.flagThenResult x result flag = (s.setV Reg.vf (flagByte flag)).setV x result := rfl

/-! ### Values laid out in memory (R46) -/

@[simp] theorem length_bcdDigits (b : Byte) : (bcdDigits b).length = 3 := rfl

@[simp] theorem State.length_registersUpTo (s : State) (x : Reg) : (s.registersUpTo x).length = x.val + 1 := by
  have := x.isLt
  simp [State.registersUpTo]

theorem State.getElem_registersUpTo (s : State) (x : Reg) (k : Nat) (h : k < (s.registersUpTo x).length) :
    (s.registersUpTo x)[k] = s.getV ⟨k, by have := x.isLt; rw [State.length_registersUpTo] at h; omega⟩ := by
  simp [State.registersUpTo, State.getV]

/-- A store at `I` leaves every byte outside the stored ones alone (R43). -/
theorem State.store_peek_outside (s : State) (bytes : List Byte) (a : Nat)
    (ha : ¬ (s.index.toNat ≤ a ∧ a < s.index.toNat + bytes.length)) : (s.store bytes).peek a = s.peek a :=
  Memory.peek_pokeSpan_outside a bytes s.mem s.index.toNat ha

/-- A store at `I` whose range has been checked puts its bytes at `I`, `I + 1`, ... (R46). -/
theorem State.store_peek_inside (s : State) (bytes : List Byte) (k : Nat) (hm : s.mem.wf = true)
    (hr : s.index.toNat + bytes.length ≤ Config.memSize) (hk : k < bytes.length) :
    (s.store bytes).peek (s.index.toNat + k) = bytes[k] := by
  rw [State.store_peek, Memory.peek_pokeSpan bytes s.mem _ _ hm hr, dif_pos (by omega)]
  simp

/-! ### Fetch (R81) -/

theorem State.fetchFaults_iff (s : State) : s.fetchFaults = true ↔ 0xFFE ≤ s.pc.toNat := decide_eq_true_iff

theorem State.fetchFaults_eq_false (s : State) : s.fetchFaults = false ↔ s.pc.toNat < 0xFFE :=
  decide_eq_false_iff_not.trans Nat.not_le

/-! ### Timers (R177) -/

/-- A tick takes one off a timer that is not zero and leaves a zero alone. -/
theorem tickTimer_toNat (t : Byte) : (tickTimer t).toNat = t.toNat - 1 := by
  unfold tickTimer
  split
  · rename_i h; subst h; rfl
  · rename_i h
    have h0 : t.toNat ≠ 0 := fun e => h (BitVec.eq_of_toNat_eq e)
    have := t.isLt
    rw [BitVec.toNat_sub]
    change (2 ^ 8 - 1 + t.toNat) % 2 ^ 8 = t.toNat - 1
    omega

end Sys2Proof.Machine
end

