-- ==== Sys2Proof/Laws/Meanings.lean ====
section
/-!
SUPPORT. The meanings that check something before they act, case by case: what each answers when its check passes and when it fails.
The other meanings answer one next state on every path.
-/
namespace Sys2Proof.Machine

/-- `RET` (R91): it pops, or the stack is empty. -/
theorem execRet_cases (s : State) :
    (∃ h : 0 < s.sp.val,
      execRet s = .next ((s.setStack ⟨s.sp.val - 1, by omega⟩ s.stack).setPc s.stack[s.sp.val - 1])) ∨
    (s.sp.val = 0 ∧ execRet s = .next (s.latch .stackUnderflow (some (encode .ret)) s.sp.val)) := by
  rcases s.pop?_cases with ⟨h, hp⟩ | ⟨h, hp⟩
  · exact .inl ⟨h, by simp only [execRet, hp]⟩
  · exact .inr ⟨h, by simp only [execRet, hp]; rfl⟩

/-- `CALL nnn` (R93): it pushes `npc`, or the stack is full. -/
theorem execCall_cases (nnn : Addr12) (s : State) :
    (∃ h : s.sp.val < 16,
      execCall nnn s =
        .next ((s.setStack ⟨s.sp.val + 1, by omega⟩ (s.stack.set s.sp.val s.npc)).setPc (addrOperand nnn))) ∨
    (s.sp.val = 16 ∧ execCall nnn s = .next (s.latch .stackOverflow (some (encode (.call nnn))) s.sp.val)) := by
  rcases s.push?_cases s.npc with ⟨h, hp⟩ | ⟨h, hp⟩
  · exact .inl ⟨h, by simp only [execCall, hp]⟩
  · exact .inr ⟨h, by simp only [execCall, hp]; rfl⟩

/-- `LD B, Vx` (R133): it stores three digits, or an address does not exist. -/
theorem execLdBVx_cases (x : Reg) (s : State) :
    (s.index.toNat + 3 ≤ 4096 ∧ execLdBVx x s = .next (s.store (bcdDigits (s.getV x))).advance) ∨
    (4096 < s.index.toNat + 3 ∧
      execLdBVx x s = .next (s.latch .addressOutOfRange (some (encode (.ldBVx x))) (max s.index.toNat 0x1000))) := by
  unfold execLdBVx
  cases h : s.offending 3 with
  | none => exact .inl ⟨((s.offending_eq_none 3).mp h).resolve_left (by omega), rfl⟩
  | some a =>
    obtain ⟨-, hr, rfl⟩ := (s.offending_eq_some 3 a).mp h
    exact .inr ⟨hr, rfl⟩

/-- `LD [I], Vx` (R134): it stores `x + 1` registers, or an address does not exist. -/
theorem execLdMemVx_cases (x : Reg) (s : State) :
    (s.index.toNat + (x.val + 1) ≤ 4096 ∧ execLdMemVx x s = .next (s.store (s.registersUpTo x)).advance) ∨
    (4096 < s.index.toNat + (x.val + 1) ∧
      execLdMemVx x s = .next (s.latch .addressOutOfRange (some (encode (.ldMemVx x))) (max s.index.toNat 0x1000))) := by
  unfold execLdMemVx
  cases h : s.offending (x.val + 1) with
  | none => exact .inl ⟨((s.offending_eq_none _).mp h).resolve_left (by omega), rfl⟩
  | some a =>
    obtain ⟨-, hr, rfl⟩ := (s.offending_eq_some _ a).mp h
    exact .inr ⟨hr, rfl⟩

/-- `LD Vx, [I]` (R135): it loads `x + 1` registers, or an address does not exist. -/
theorem execLdVxMem_cases (x : Reg) (s : State) :
    (s.index.toNat + (x.val + 1) ≤ 4096 ∧ execLdVxMem x s = .next (s.loadRegisters x).advance) ∨
    (4096 < s.index.toNat + (x.val + 1) ∧
      execLdVxMem x s = .next (s.latch .addressOutOfRange (some (encode (.ldVxMem x))) (max s.index.toNat 0x1000))) := by
  unfold execLdVxMem
  cases h : s.offending (x.val + 1) with
  | none => exact .inl ⟨((s.offending_eq_none _).mp h).resolve_left (by omega), rfl⟩
  | some a =>
    obtain ⟨-, hr, rfl⟩ := (s.offending_eq_some _ a).mp h
    exact .inr ⟨hr, rfl⟩

/-- What `DRW` has drawn when its rows are done. -/
def State.drawnSprite (s : State) (x y : Reg) (n : Digit) : Canvas :=
  Canvas.drawRows (s.fb, false) (s.getV x).toNat (s.getV y).toNat (s.fetchBytes n.val)

/-- `DRW Vx, Vy, n` (R151): it draws, or an address does not exist. -/
theorem execDrw_cases (x y : Reg) (n : Digit) (s : State) :
    ((n.val = 0 ∨ s.index.toNat + n.val ≤ 4096) ∧
      execDrw x y n s =
        .next ((s.setFB (s.drawnSprite x y n).1).setV Reg.vf (flagByte (s.drawnSprite x y n).2)).advance) ∨
    (0 < n.val ∧ 4096 < s.index.toNat + n.val ∧
      execDrw x y n s = .next (s.latch .addressOutOfRange (some (encode (.drw x y n))) (max s.index.toNat 0x1000))) := by
  unfold execDrw
  cases h : s.offending n.val with
  | none => exact .inl ⟨(s.offending_eq_none _).mp h, rfl⟩
  | some a =>
    obtain ⟨hn, hr, rfl⟩ := (s.offending_eq_some _ a).mp h
    exact .inr ⟨hn, hr, rfl⟩

/-- `SKP Vx` (R141): it tests the key, or there is no such key. -/
theorem execSkp_cases (x : Reg) (s : State) :
    (∃ h : (s.getV x).toNat < 16, execSkp x s = .next (s.skipIf (s.key ⟨(s.getV x).toNat, h⟩))) ∨
    (16 ≤ (s.getV x).toNat ∧
      execSkp x s = .next (s.latch .indexOutOfRange (some (encode (.skp x))) (s.getV x).toNat)) := by
  rcases Nat.lt_or_ge (s.getV x).toNat 16 with h | h
  · exact .inl ⟨h, by simp only [execSkp, s.keyOperand_of_lt x h]⟩
  · exact .inr ⟨h, by simp only [execSkp, s.keyOperand_of_ge x h]; rfl⟩

/-- `SKNP Vx` (R142): it tests the key, or there is no such key. -/
theorem execSknp_cases (x : Reg) (s : State) :
    (∃ h : (s.getV x).toNat < 16, execSknp x s = .next (s.skipIf (!s.key ⟨(s.getV x).toNat, h⟩))) ∨
    (16 ≤ (s.getV x).toNat ∧
      execSknp x s = .next (s.latch .indexOutOfRange (some (encode (.sknp x))) (s.getV x).toNat)) := by
  rcases Nat.lt_or_ge (s.getV x).toNat 16 with h | h
  · exact .inl ⟨h, by simp only [execSknp, s.keyOperand_of_lt x h]⟩
  · exact .inr ⟨h, by simp only [execSknp, s.keyOperand_of_ge x h]; rfl⟩

/-- `LD Vx, K` (R144): it takes the least pressed key, or no key is pressed. -/
theorem execLdVxK_cases (x : Reg) (s : State) :
    (∃ k, s.firstKey = some k ∧ execLdVxK x s = .next (s.setV x (BitVec.ofNat 8 k.val)).advance) ∨
    (s.firstKey = none ∧ execLdVxK x s = .next (s.setPc (s.npc - 2))) := by
  unfold execLdVxK
  cases h : s.firstKey with
  | some k => exact .inl ⟨k, rfl, rfl⟩
  | none => exact .inr ⟨rfl, rfl⟩

/-- What a step can do (R86): one of four things, by the checks in their order. -/
theorem step_cases (s : State) :
    (s.halt ≠ none ∧ step s = .next s) ∨
    (s.halt = none ∧ s.fetchFaults = true ∧ step s = .next (s.latch .addressOutOfRange none s.pc.toNat)) ∨
    (s.halt = none ∧ s.fetchFaults = false ∧ decode s.fetchWord = .unsupportedOpcode s.fetchWord ∧
      step s = .next (s.latch .unsupportedOpcode (some s.fetchWord) s.fetchWord.toNat)) ∨
    (s.halt = none ∧ s.fetchFaults = false ∧ ∃ i, decode s.fetchWord = .instr i ∧ step s = exec i s) := by
  cases hh : s.halt with
  | some r => exact .inl ⟨by simp, by simp only [step, hh]⟩
  | none =>
    cases hf : s.fetchFaults with
    | true => exact .inr (.inl ⟨rfl, rfl, by simp only [step, hh, hf]; rfl⟩)
    | false =>
      rcases decode_cases s.fetchWord with ⟨i, hi⟩ | hi
      · exact .inr (.inr (.inr ⟨rfl, rfl, i, hi, by simp only [step, hh, hf, hi]; rfl⟩))
      · exact .inr (.inr (.inl ⟨rfl, rfl, hi, by simp only [step, hh, hf, hi]; rfl⟩))

end Sys2Proof.Machine
end

