-- ==== Sys2Proof/Laws/PerInstr.lean ====
section
/-!
SUPPORT. The family OpcodeRow: the word of every instruction has the fixed bits of its row of the opcode table, and its operands are
in range (spec/30_encoding.md R61, R62, R65). One lemma per constructor.
-/
namespace Sys2Proof.Laws.OpcodeRow

/-- The encoder's word fits the constructor's row, and the instruction is well formed. -/
def Statement (i : Instr) : Prop := i.row.fits (encode i) = true ∧ i.wellFormed = true

theorem fits_A (op : Digit) (nnn : Addr12) (p : Word) (h : formatXYN op 0 0 0 = p) :
    (formatA op nnn &&& 0xF000#16 == p) = true := by
  rw [word_mask_F000, digit1_formatA, h]; exact beq_self_eq_true p

theorem fits_XK (op x : Digit) (kk : Byte) (p : Word) (h : formatXYN op 0 0 0 = p) :
    (formatXK op x kk &&& 0xF000#16 == p) = true := by
  rw [word_mask_F000, digit1_formatXK, h]; exact beq_self_eq_true p

theorem fits_XYN (op x y n : Digit) (p : Word) (h : formatXYN op 0 0 0 = p) :
    (formatXYN op x y n &&& 0xF000#16 == p) = true := by
  rw [mask_F000, h]; exact beq_self_eq_true p

theorem fits_XY (op x y n : Digit) (p : Word) (h : formatXYN op 0 0 n = p) :
    (formatXYN op x y n &&& 0xF00F#16 == p) = true := by
  rw [mask_F00F, h]; exact beq_self_eq_true p

theorem fits_XS (op x : Digit) (kk : Byte) (p : Word)
    (h : formatXYN op 0 (digit3 (kk.setWidth 16)) (digit4 (kk.setWidth 16)) = p) :
    (formatXK op x kk &&& 0xF0FF#16 == p) = true := by
  have hk := kk.isLt
  have h3 : digit3 (formatXK op x kk) = digit3 (kk.setWidth 16) := by
    apply Fin.ext; rw [digit3_val, digit3_val, formatXK_toNat, BitVec.toNat_setWidth]; omega
  have h4 : digit4 (formatXK op x kk) = digit4 (kk.setWidth 16) := by
    apply Fin.ext; rw [digit4_val, digit4_val, formatXK_toNat, BitVec.toNat_setWidth]; omega
  rw [word_mask_F0FF, digit1_formatXK, h3, h4, h]; exact beq_self_eq_true p

theorem digit_wellFormed (d : Digit) : digitWellFormed d = true := decide_eq_true d.isLt
theorem byte_wellFormed (b : Byte) : byteWellFormed b.toNat = true := decide_eq_true b.isLt
theorem addr_wellFormed (a : Addr12) : addrWellFormed a.toNat = true := decide_eq_true a.isLt

theorem two_digits_wellFormed (a b : Digit) : (digitWellFormed a && digitWellFormed b) = true := by
  rw [digit_wellFormed, digit_wellFormed]; rfl

theorem digit_byte_wellFormed (a : Digit) (b : Byte) : (digitWellFormed a && byteWellFormed b.toNat) = true := by
  rw [digit_wellFormed, byte_wellFormed]; rfl

theorem nop : Statement .nop := ⟨rfl, rfl⟩
theorem cls : Statement .cls := ⟨rfl, rfl⟩
theorem ret : Statement .ret := ⟨rfl, rfl⟩
theorem jp (nnn : Addr12) : Statement (.jp nnn) := ⟨fits_A 0x1 nnn _ rfl, addr_wellFormed nnn⟩
theorem call (nnn : Addr12) : Statement (.call nnn) := ⟨fits_A 0x2 nnn _ rfl, addr_wellFormed nnn⟩
theorem seByte (x : Reg) (kk : Byte) : Statement (.seByte x kk) := ⟨fits_XK 0x3 x kk _ rfl, digit_byte_wellFormed x kk⟩
theorem sneByte (x : Reg) (kk : Byte) : Statement (.sneByte x kk) := ⟨fits_XK 0x4 x kk _ rfl, digit_byte_wellFormed x kk⟩
theorem seReg (x y : Reg) : Statement (.seReg x y) := ⟨fits_XY 0x5 x y 0x0 _ rfl, two_digits_wellFormed x y⟩
theorem ldByte (x : Reg) (kk : Byte) : Statement (.ldByte x kk) := ⟨fits_XK 0x6 x kk _ rfl, digit_byte_wellFormed x kk⟩
theorem addByte (x : Reg) (kk : Byte) : Statement (.addByte x kk) := ⟨fits_XK 0x7 x kk _ rfl, digit_byte_wellFormed x kk⟩
theorem ldReg (x y : Reg) : Statement (.ldReg x y) := ⟨fits_XY 0x8 x y 0x0 _ rfl, two_digits_wellFormed x y⟩
theorem orReg (x y : Reg) : Statement (.orReg x y) := ⟨fits_XY 0x8 x y 0x1 _ rfl, two_digits_wellFormed x y⟩
theorem andReg (x y : Reg) : Statement (.andReg x y) := ⟨fits_XY 0x8 x y 0x2 _ rfl, two_digits_wellFormed x y⟩
theorem xorReg (x y : Reg) : Statement (.xorReg x y) := ⟨fits_XY 0x8 x y 0x3 _ rfl, two_digits_wellFormed x y⟩
theorem addReg (x y : Reg) : Statement (.addReg x y) := ⟨fits_XY 0x8 x y 0x4 _ rfl, two_digits_wellFormed x y⟩
theorem subReg (x y : Reg) : Statement (.subReg x y) := ⟨fits_XY 0x8 x y 0x5 _ rfl, two_digits_wellFormed x y⟩
theorem shr (x y : Reg) : Statement (.shr x y) := ⟨fits_XY 0x8 x y 0x6 _ rfl, two_digits_wellFormed x y⟩
theorem subnReg (x y : Reg) : Statement (.subnReg x y) := ⟨fits_XY 0x8 x y 0x7 _ rfl, two_digits_wellFormed x y⟩
theorem shl (x y : Reg) : Statement (.shl x y) := ⟨fits_XY 0x8 x y 0xE _ rfl, two_digits_wellFormed x y⟩
theorem sneReg (x y : Reg) : Statement (.sneReg x y) := ⟨fits_XY 0x9 x y 0x0 _ rfl, two_digits_wellFormed x y⟩
theorem ldI (nnn : Addr12) : Statement (.ldI nnn) := ⟨fits_A 0xA nnn _ rfl, addr_wellFormed nnn⟩
theorem jpV0 (nnn : Addr12) : Statement (.jpV0 nnn) := ⟨fits_A 0xB nnn _ rfl, addr_wellFormed nnn⟩
theorem rnd (x : Reg) (kk : Byte) : Statement (.rnd x kk) := ⟨fits_XK 0xC x kk _ rfl, digit_byte_wellFormed x kk⟩
theorem drw (x y : Reg) (n : Digit) : Statement (.drw x y n) :=
  ⟨fits_XYN 0xD x y n _ rfl, by rw [Instr.wellFormed, two_digits_wellFormed, digit_wellFormed]; rfl⟩
theorem skp (x : Reg) : Statement (.skp x) := ⟨fits_XS 0xE x 0x9E#8 _ rfl, digit_wellFormed x⟩
theorem sknp (x : Reg) : Statement (.sknp x) := ⟨fits_XS 0xE x 0xA1#8 _ rfl, digit_wellFormed x⟩
theorem ldVxDT (x : Reg) : Statement (.ldVxDT x) := ⟨fits_XS 0xF x 0x07#8 _ rfl, digit_wellFormed x⟩
theorem ldVxK (x : Reg) : Statement (.ldVxK x) := ⟨fits_XS 0xF x 0x0A#8 _ rfl, digit_wellFormed x⟩
theorem ldDTVx (x : Reg) : Statement (.ldDTVx x) := ⟨fits_XS 0xF x 0x15#8 _ rfl, digit_wellFormed x⟩
theorem ldSTVx (x : Reg) : Statement (.ldSTVx x) := ⟨fits_XS 0xF x 0x18#8 _ rfl, digit_wellFormed x⟩
theorem addIVx (x : Reg) : Statement (.addIVx x) := ⟨fits_XS 0xF x 0x1E#8 _ rfl, digit_wellFormed x⟩
theorem ldFVx (x : Reg) : Statement (.ldFVx x) := ⟨fits_XS 0xF x 0x29#8 _ rfl, digit_wellFormed x⟩
theorem ldBVx (x : Reg) : Statement (.ldBVx x) := ⟨fits_XS 0xF x 0x33#8 _ rfl, digit_wellFormed x⟩
theorem ldMemVx (x : Reg) : Statement (.ldMemVx x) := ⟨fits_XS 0xF x 0x55#8 _ rfl, digit_wellFormed x⟩
theorem ldVxMem (x : Reg) : Statement (.ldVxMem x) := ⟨fits_XS 0xF x 0x65#8 _ rfl, digit_wellFormed x⟩

end Sys2Proof.Laws.OpcodeRow
end

