-- ==== Sys2Proof/Tests/Slice0.lean ====
section
/-!
SUPPORT. Tests: ill-formed terms, words decoded as the spec encodes them, one step each from the vectors of
spec/95_test_vectors.md (their ids stand in the comments), and for every obligation with hypotheses a state that meets them.
-/
namespace Sys2Proof.Test
open Sys2Proof.Machine

/-! ### Helpers -/

/-- The reset state with some registers, the index register and some bytes at that address. -/
def mk (regs : List (Reg × Byte)) (index : Word := 0) (bytes : List Byte := []) : State :=
  (regs.foldl (fun s r => s.setV r.1 r.2) (State.reset.setIndex index)).store bytes

/-- The state after one step on this word. -/
def run (w : Word) (s : State) : State :=
  match step (s.withFetchWord 16 w.toNat) with
  | .next t => t
  | .fault _ => s
  | .refused _ => s

/-- The pixels that are on, as (column, row), in row-major order. -/
def lit (fb : Framebuffer) (columns rows : List Nat) : List (Nat × Nat) :=
  rows.flatMap fun y => (columns.filter fun x => fb.pixel (screenColumn x) (screenRow y)).map fun x => (x, y)

/-- The latched record of a fault at the reset address. -/
def faulted (cause : FaultCause) (word : Word) (info : Nat) : Option FaultRecord := some ⟨cause, 0x200#16, some word, info⟩

/-! ### Ill-formed terms, one for each check of Sys2Proof/WellFormed.lean -/

theorem test_register_number_bound : digitWellFormed 15 = true ∧ digitWellFormed 16 = false := by decide
theorem test_byte_bound : byteWellFormed 255 = true ∧ byteWellFormed 256 = false := by decide
theorem test_address_bound : addrWellFormed 4095 = true ∧ addrWellFormed 4096 = false := by decide
theorem test_illegal_words_fit_no_row :
    [0x0001#16, 0x0230#16, 0x5121#16, 0x8008#16, 0x800F#16, 0x9001#16, 0xE09F#16, 0xF056#16, 0xFFFF#16].all
      (fun w => !wordWellFormed w) = true := by decide
theorem test_legal_words_fit_a_row :
    [0x0000#16, 0x00E0#16, 0x00EE#16, 0x5120#16, 0x800E#16, 0x9000#16, 0xE0A1#16, 0xFF65#16].all wordWellFormed = true := by
  decide
theorem test_every_operand_type_is_bounded :
    Instr.wellFormed (.jp 0xFFF) = true ∧ Instr.wellFormed (.drw 15 15 15) = true ∧ Instr.wellFormed (.rnd 15 0xFF) = true := by
  decide

/-! ### Decoding: each word is written from the row and format of 30_encoding.md R62 and R65, not from the encoder -/

theorem test_decode_control :
    decode 0x0000#16 = .instr .nop ∧ decode 0x00E0#16 = .instr .cls ∧ decode 0x00EE#16 = .instr .ret ∧
    decode 0b0001101010111100#16 = .instr (.jp 0xABC) ∧ decode 0x220C#16 = .instr (.call 0x20C) ∧
    decode 0xB300#16 = .instr (.jpV0 0x300) := by decide
theorem test_decode_skips :
    decode 0x3005#16 = .instr (.seByte 0 5) ∧ decode 0x4A17#16 = .instr (.sneByte 0xA 0x17) ∧
    decode 0b0101000100100000#16 = .instr (.seReg 1 2) ∧ decode 0x9AB0#16 = .instr (.sneReg 0xA 0xB) := by decide
theorem test_decode_loads :
    decode 0b0110101010110111#16 = .instr (.ldByte 0xA 0xB7) ∧ decode 0x7102#16 = .instr (.addByte 1 2) ∧
    decode 0x8120#16 = .instr (.ldReg 1 2) := by decide
theorem test_decode_alu :
    decode 0x8011#16 = .instr (.orReg 0 1) ∧ decode 0x8232#16 = .instr (.andReg 2 3) ∧ decode 0x8453#16 = .instr (.xorReg 4 5) ∧
    decode 0b1000000000010100#16 = .instr (.addReg 0 1) ∧ decode 0x8675#16 = .instr (.subReg 6 7) ∧
    decode 0x8896#16 = .instr (.shr 8 9) ∧ decode 0x8AB7#16 = .instr (.subnReg 0xA 0xB) ∧
    decode 0x8CDE#16 = .instr (.shl 0xC 0xD) := by decide
theorem test_decode_index :
    decode 0b1010001100000000#16 = .instr (.ldI 0x300) ∧ decode 0xF21E#16 = .instr (.addIVx 2) ∧
    decode 0xF029#16 = .instr (.ldFVx 0) ∧ decode 0xF733#16 = .instr (.ldBVx 7) ∧ decode 0xF155#16 = .instr (.ldMemVx 1) ∧
    decode 0xF265#16 = .instr (.ldVxMem 2) := by decide
theorem test_decode_devices :
    decode 0b1100000000001111#16 = .instr (.rnd 0 0x0F) ∧ decode 0xE29E#16 = .instr (.skp 2) ∧
    decode 0xE2A1#16 = .instr (.sknp 2) ∧ decode 0xF407#16 = .instr (.ldVxDT 4) ∧ decode 0xF30A#16 = .instr (.ldVxK 3) ∧
    decode 0xF315#16 = .instr (.ldDTVx 3) ∧ decode 0xF018#16 = .instr (.ldSTVx 0) := by decide
theorem test_decode_display : decode 0b1101000100100101#16 = .instr (.drw 1 2 5) := by decide
/-- One illegal word or more for each family of 30_encoding.md section 4. -/
theorem test_decode_illegal :
    [0x0001#16, 0x00EF#16, 0x0230#16, 0x5121#16, 0x8018#16, 0x801F#16, 0x9001#16, 0xE000#16, 0xE0A0#16, 0xF000#16, 0xF056#16].all
      (fun w => decode w = .unsupportedOpcode w) = true := by decide
theorem test_decode_bytes_high_byte_first :
    decodeBytes [0x12#8, 0x0C#8] = some (.instr (.jp 0x20C)) ∧ decodeBytes [0x12#8] = none := by decide
theorem test_decode_table_word :
    decodeTableWord 16 0xD125 = some (.drw 1 2 5) ∧ decodeTableWord 16 0x0001 = none := by decide
/-- R69: "any 8xy6 or 8xyE as SHR Vx or SHL Vx whatever y is". -/
theorem test_text_ignores_y : (Instr.shr 3 1).text = "SHR V3" ∧ (Instr.shr 3 7).text = "SHR V3" := ⟨rfl, rfl⟩

/-! ### Control flow -/

/-- CF-1. -/
theorem test_nop : (run 0x0000 State.reset).pc = 0x202 := by decide
/-- CF-3. -/
theorem test_jp_to_itself : (run 0x120C { State.reset with pc := 0x20C }).pc = 0x20C := by decide
/-- CF-2. -/
theorem test_jp : (run 0x1ABC State.reset).pc = 0xABC := by decide
/-- CF-6. -/
theorem test_call :
    let t := run 0x220C { State.reset with pc := 0x204 }
    t.stack[0] = 0x206 ∧ t.sp = 1 ∧ t.pc = 0x20C := by decide
/-- CF-9, CF-10: the sixteenth call succeeds, the seventeenth faults. -/
theorem test_call_full :
    let t := run 0x2300 { State.reset with sp := 15 }
    t.stack[15] = 0x202 ∧ t.sp = 16 ∧ (run 0x2300 { t with pc := 0x200 }).halt = faulted .stackOverflow 0x2300 16 := by decide
/-- CF-7. -/
theorem test_ret :
    let t := run 0x00EE { State.reset with sp := 1, stack := State.reset.stack.set 0 0x206 }
    t.pc = 0x206 ∧ t.sp = 0 := by decide
/-- CF-8. -/
theorem test_ret_empty :
    (run 0x00EE State.reset).halt = faulted .stackUnderflow 0x00EE 0 ∧ (run 0x00EE State.reset).pc = 0x200 := by decide
/-- CF-12: the sum is not masked. -/
theorem test_jpV0_beyond_memory : (run 0xBFFF (mk [(0, 0xFF)])).pc = 0x10FE := by decide
/-- CF-13: V0 is used, not V3. -/
theorem test_jpV0_uses_v0 : (run 0xB300 (mk [(0, 0x01), (3, 0x40)])).pc = 0x301 := by decide

/-! ### Step: fetch and decode faults -/

/-- S16: a fetch at 0xFFE faults, one at 0xFFC does not; the record's word is absent. -/
theorem test_fetch_limit :
    (match step { State.reset with pc := 0xFFE } with | .next t => t.halt | _ => none) =
      some ⟨.addressOutOfRange, 0xFFE, none, 0xFFE⟩ ∧
    (match step { State.reset with pc := 0xFFC } with | .next t => t.halt | _ => none) = none := by decide
/-- CF-14. -/
theorem test_illegal_word : (run 0x0001 State.reset).halt = faulted .unsupportedOpcode 0x0001 1 := by decide
/-- CF-5b: an odd `pc` is not checked. -/
theorem test_odd_pc :
    let t := run 0x6A42 { State.reset with pc := 0x301 }
    t.getV 0xA = 0x42 ∧ t.pc = 0x303 := by decide
/-- RL-5: a halted core's step changes nothing. -/
theorem test_halted_step : step (run 0x0001 State.reset) = .next (run 0x0001 State.reset) := rfl

/-! ### Skips -/

/-- S8. -/
theorem test_seByte : (run 0x3005 (mk [(0, 5)])).pc = 0x204 ∧ (run 0x3006 (mk [(0, 5)])).pc = 0x202 := by decide
theorem test_sneByte : (run 0x4005 (mk [(0, 5)])).pc = 0x202 ∧ (run 0x4006 (mk [(0, 5)])).pc = 0x204 := by decide
/-- S9. -/
theorem test_seReg : (run 0x5120 (mk [(1, 5), (2, 6)])).pc = 0x202 ∧ (run 0x5120 (mk [(1, 5), (2, 5)])).pc = 0x204 := by decide
theorem test_sneReg : (run 0x9120 (mk [(1, 5), (2, 6)])).pc = 0x204 ∧ (run 0x9120 (mk [(1, 5), (2, 5)])).pc = 0x202 := by decide

/-! ### Loads and ALU -/

/-- AL-1. -/
theorem test_ldByte : (run 0x6AB7 State.reset).getV 0xA = 0xB7 := by decide
/-- AL-3: no flag. -/
theorem test_addByte_wraps :
    (run 0x7102 (mk [(1, 0xFF)])).getV 1 = 0x01 ∧ (run 0x7102 (mk [(1, 0xFF)])).getV 0xF = 0 := by decide
/-- AL-6. -/
theorem test_ldReg : (run 0x8120 (mk [(2, 0x37)])).getV 1 = 0x37 := by decide
/-- AL-7: VF is left alone. -/
theorem test_or :
    let t := run 0x8011 (mk [(0, 0xF0), (1, 0x0F), (0xF, 1)])
    t.getV 0 = 0xFF ∧ t.getV 0xF = 1 := by decide
/-- AL-8. -/
theorem test_and :
    let t := run 0x8012 (mk [(0, 0xF0), (1, 0x3C), (0xF, 1)])
    t.getV 0 = 0x30 ∧ t.getV 0xF = 1 := by decide
/-- AL-9. -/
theorem test_xor :
    let t := run 0x8013 (mk [(0, 0xF0), (1, 0x3C), (0xF, 1)])
    t.getV 0 = 0xCC ∧ t.getV 0xF = 1 := by decide
/-- S2. -/
theorem test_add_carry :
    let t := run 0x8014 (mk [(0, 0xB7), (1, 0x9D)])
    t.getV 0 = 0x54 ∧ t.getV 0xF = 1 := by decide
/-- AL-16, AL-33: VF as the source, VF as the destination. -/
theorem test_add_vf :
    (run 0x80F4 (mk [(0, 0x10), (0xF, 1)])).getV 0 = 0x11 ∧ (run 0x80F4 (mk [(0, 0x10), (0xF, 1)])).getV 0xF = 0 ∧
    (run 0x8F14 (mk [(0xF, 0x10), (1, 0x20)])).getV 0xF = 0 := by decide
/-- S5. -/
theorem test_sub_borrow :
    let t := run 0x8015 (mk [(0, 0xA0), (1, 0xB5)])
    t.getV 0 = 0xEB ∧ t.getV 0xF = 0 := by decide
/-- AL-18: equality is no borrow. -/
theorem test_sub_equal :
    let t := run 0x8015 (mk [(0, 5), (1, 5)])
    t.getV 0 = 0 ∧ t.getV 0xF = 1 := by decide
/-- S7. -/
theorem test_shr :
    let t := run 0x8006 (mk [(0, 0x55)])
    t.getV 0 = 0x2A ∧ t.getV 0xF = 1 := by decide
/-- AL-23, AL-35: `y` is ignored; with `x = F` the shifted value survives. -/
theorem test_shr_y_and_vf :
    (run 0x8016 (mk [(0, 0x80), (1, 3)])).getV 0 = 0x40 ∧ (run 0x8016 (mk [(0, 0x80), (1, 3)])).getV 1 = 3 ∧
    (run 0x8F06 (mk [(0xF, 6)])).getV 0xF = 3 := by decide
/-- AL-26. -/
theorem test_subn :
    let t := run 0x8017 (mk [(0, 0x1F), (1, 0xB7)])
    t.getV 0 = 0x98 ∧ t.getV 0xF = 1 := by decide
/-- AL-27. -/
theorem test_subn_borrow :
    let t := run 0x8017 (mk [(0, 0x20), (1, 0x10)])
    t.getV 0 = 0xF0 ∧ t.getV 0xF = 0 := by decide
/-- AL-31. -/
theorem test_shl :
    let t := run 0x830E (mk [(3, 0xAA)])
    t.getV 3 = 0x54 ∧ t.getV 0xF = 1 := by decide
/-- AL-36. -/
theorem test_shl_vf : (run 0x8F0E (mk [(0xF, 0x81)])).getV 0xF = 2 := by decide

/-! ### Index and memory -/

/-- IM-1. -/
theorem test_ldI : (run 0xA300 State.reset).index = 0x300 := by decide
/-- IM-3, IM-4. -/
theorem test_addIVx : (run 0xF01E (mk [(0, 1)] 0xFFF)).index = 0x1000 ∧ (run 0xF01E (mk [(0, 1)] 0xFFFF)).index = 0 := by decide
/-- IM-5, IM-6: all of `V[x]`. -/
theorem test_ldFVx : (run 0xF029 (mk [(0, 0x0A)])).index = 0x32 ∧ (run 0xF029 (mk [(0, 0xFF)])).index = 0x4FB := by decide
/-- IM-7. -/
theorem test_ldBVx : (List.range 3).map (fun k => (run 0xF033 (mk [(0, 0xFE)] 0x300)).peek (0x300 + k)) = [2, 5, 4] := by decide
/-- IM-9, IM-10: the top of memory. -/
theorem test_ldBVx_edge :
    (run 0xF033 (mk [(0, 0xFE)] 0xFFD)).peek 0xFFF = 4 ∧ (run 0xF033 (mk [(0, 0xFE)] 0xFFD)).halt = none ∧
    (run 0xF033 (mk [(0, 0xFE)] 0xFFE)).halt = faulted .addressOutOfRange 0xF033 0x1000 ∧
    (run 0xF033 (mk [(0, 0xFE)] 0xFFE)).peek 0xFFE = 0 := by decide
/-- IM-11: `I` and the byte above are unchanged. -/
theorem test_ldMemVx :
    let t := run 0xF155 (mk [(0, 0x12), (1, 0x08), (2, 0x77)] 0x208)
    t.peek 0x208 = 0x12 ∧ t.peek 0x209 = 0x08 ∧ t.peek 0x20A = 0 ∧ t.index = 0x208 := by decide
/-- IM-12, IM-13. -/
theorem test_ldMemVx_edge :
    (run 0xFF55 (mk [(0xF, 0x0F)] 0xFF0)).peek 0xFFF = 0x0F ∧
    (run 0xFF55 (mk [(0, 1)] 0xFF1)).halt = faulted .addressOutOfRange 0xFF55 0x1000 ∧
    (run 0xFF55 (mk [(0, 1)] 0xFF1)).peek 0xFF1 = 0 := by decide
/-- IM-14. -/
theorem test_ldVxMem :
    let t := run 0xF265 (mk [(3, 0x99)] 0x300 [2, 5, 4])
    t.getV 0 = 2 ∧ t.getV 1 = 5 ∧ t.getV 2 = 4 ∧ t.getV 3 = 0x99 ∧ t.index = 0x300 := by decide
/-- IM-15, IM-16: beyond memory, and the glyph of 0 in the default FONT. -/
theorem test_ldVxMem_edge :
    (run 0xF065 (mk [] 0x1000)).halt = faulted .addressOutOfRange 0xF065 0x1000 ∧
    (List.finRange 5).map (fun k => (run 0xF465 State.reset).getV (Fin.castLE (by decide) k)) = [0xF0, 0x90, 0x90, 0x90, 0xF0] := by
  decide

/-! ### Random, keypad, timers -/

/-- RK-2: any draw. -/
theorem test_rnd_mask_zero : (run 0xC000 State.reset).getV 0 = 0 := BitVec.and_zero
/-- RK-3: the draw itself. -/
theorem test_rnd_mask_ones : (run 0xC0FF State.reset).getV 0 = Config.randomByte 0 := BitVec.and_allOnes
/-- RK-4, RK-5. -/
theorem test_skp :
    (run 0xE29E { mk [(2, 7)] with keys := State.reset.keys.set 7 true }).pc = 0x204 ∧ (run 0xE29E (mk [(2, 7)])).pc = 0x202 := by
  decide
/-- RK-8. -/
theorem test_skp_no_key : (run 0xE09E (mk [(0, 0x10)])).halt = faulted .indexOutOfRange 0xE09E 16 := by decide
/-- RK-6, RK-7. -/
theorem test_sknp :
    (run 0xE2A1 { mk [(2, 7)] with keys := State.reset.keys.set 7 true }).pc = 0x202 ∧ (run 0xE2A1 (mk [(2, 7)])).pc = 0x204 := by
  decide
/-- RK-9. -/
theorem test_sknp_no_key : (run 0xE0A1 (mk [(0, 0xFF)])).halt = faulted .indexOutOfRange 0xE0A1 255 := by decide
/-- RK-11. -/
theorem test_ldVxDT : (run 0xF407 { State.reset with dt := 5 }).getV 4 = 5 := by decide
/-- RK-15. -/
theorem test_ldVxK_least :
    let t := run 0xF30A { State.reset with keys := (State.reset.keys.set 7 true).set 0xB true }
    t.getV 3 = 7 ∧ t.pc = 0x202 := by decide
/-- RK-14. -/
theorem test_ldVxK_none : (run 0xF30A (mk [(3, 0x55)])).pc = 0x200 ∧ (run 0xF30A (mk [(3, 0x55)])).getV 3 = 0x55 := by decide
/-- RK-12. -/
theorem test_ldDTVx : (run 0xF315 (mk [(3, 7)])).dt = 7 := by decide
/-- RK-13. -/
theorem test_ldSTVx : (run 0xF018 (mk [(0, 0x1E)])).st = 0x1E := by decide
/-- RK-17, RK-18. -/
theorem test_tick :
    (runEvents [.tickTimers, .tickTimers, .tickTimers] { State.reset with dt := 2 }).dt = 0 ∧
    (handle .tickTimers { State.reset with st := 0xFF }).1.st = 0xFE := by decide
/-- RK-19. -/
theorem test_setKey_16 : handle (.setKey 16 true) State.reset = (State.reset, .refused (.indexOutOfRange 16)) := rfl

/-- R181: the host reads ST and whether it is not zero. -/
theorem test_readSound :
    handle .readSound { State.reset with st := 1 } = ({ State.reset with st := 1 }, .sound 1 true) ∧
    handle .readSound State.reset = (State.reset, .sound 0 false) := ⟨rfl, rfl⟩

/-! ### Display -/

/-- DRW-12: VF is left alone. -/
theorem test_cls :
    let t := run 0x00E0 { mk [(0xF, 1)] with fb := State.reset.fb.flip 3 4 }
    lit t.fb [3] [4] = [] ∧ t.getV 0xF = 1 := by decide
/-- DRW-4: wrap in both axes. -/
theorem test_drw_wraps :
    let t := run 0xD122 (mk [(1, 62), (2, 31)] 0x300 [0xC3, 0x81])
    lit t.fb [0, 3, 4, 5, 6, 61, 62, 63] [31, 0, 1] = [(4, 31), (5, 31), (62, 31), (63, 31), (5, 0), (62, 0)] ∧
    t.getV 0xF = 0 := by decide
/-- DRW-8, DRW-9: a collision; a range fault. -/
theorem test_drw_collision :
    (let t := run 0xD011 { mk [] 0x300 [0xC0] with fb := State.reset.fb.flip 1 0 }
     lit t.fb [0, 1, 2] [0] = [(0, 0)] ∧ t.getV 0xF = 1) ∧
    (run 0xD012 (mk [] 0xFFF)).halt = faulted .addressOutOfRange 0xD012 0x1000 := by decide

/-! ### Reset and load -/

/-- R27: the default FONT has 16 glyphs of 5 bytes. -/
theorem test_font_length : Config.font.length = Config.fontBytes := by decide
/-- RL-1: a loaded program is discarded. -/
theorem test_reset_discards : (runEvents [.load [0x12, 0x00], .reset] State.reset).peek 0x200 = 0 := by decide
/-- RL-3. -/
theorem test_load :
    let t := runEvents (boot [0x12, 0x00]) State.reset
    t.peek 0x200 = 0x12 ∧ t.peek 0x201 = 0 ∧ t.pc = 0x200 := by decide

/-! ### Witnesses: for each obligation with hypotheses, values that meet them all, at the boundaries of each clause's range -/

theorem witness_EncodeAndDecodeAreInverse : decode 0xDFFF#16 = .instr (.drw 15 15 15) := by decide
/-- An instruction's word and an illegal one. -/
theorem witness_DecoderFollowsTheOpcodeTable :
    (Instr.drw 15 15 15).row.fits 0xDFFF#16 = true ∧ opcodeTable.all (fun r => !r.fits 0x800F#16) = true := by decide
theorem witness_FetchIsBigEndian :
    State.reset.mem.wf = true ∧ State.reset.load [0x12, 0x0C] = .ok { State.reset with mem := [(0x200, 0x12), (0x201, 0x0C)] } ∧
    State.reset.pc.toNat = 0x200 + 0 ∧ 0 + 1 < [0x12#8, 0x0C#8].length := ⟨rfl, rfl, rfl, by decide⟩
/-- The last address a fetch reads from. -/
theorem witness_StepRunsTheDecodedInstruction :
    let s := { mk [] 0xFFD [0xD1, 0x25] with pc := 0xFFD }
    s.halt = none ∧ s.pc.toNat < 0xFFE ∧ decode s.fetchWord = .instr (.drw 1 2 5) := by decide
/-- A halted core; the first address a fetch faults at; an illegal word at the last address below it. -/
theorem witness_StepChecksInOrder :
    (run 0x0001 State.reset).halt ≠ none ∧
    (let s := { State.reset with pc := 0xFFE }
     s.halt = none ∧ 0xFFE ≤ s.pc.toNat) ∧
    (let s := { mk [] 0xFFD [0x80, 0x08] with pc := 0xFFD }
     s.halt = none ∧ s.pc.toNat < 0xFFE ∧ decode s.fetchWord = .unsupportedOpcode 0x8008) := by decide
/-- The last state on each side of a check: the sixteenth call, a range that ends at 0xFFF, key 15. -/
theorem witness_StepFaultsExactlyWhenACheckFails :
    State.reset.halt = none ∧ ({ State.reset with sp := 15 } : State).dutiesMet (.call 0) = true ∧
    ({ State.reset with sp := 16 } : State).dutiesMet (.call 0) = false ∧ State.reset.dutiesMet .ret = false ∧
    (mk [] 0xFFD).dutiesMet (.ldBVx 0) = true ∧ (mk [] 0xFFE).dutiesMet (.ldBVx 0) = false ∧
    (mk [] 0xFFFF).dutiesMet (.drw 0 0 0) = true ∧ (mk [] 0xFFF).dutiesMet (.drw 0 0 2) = false ∧
    (mk [(2, 15)]).dutiesMet (.skp 2) = true ∧ (mk [(2, 16)]).dutiesMet (.skp 2) = false := by decide
theorem witness_PlacedInstructionIsTheNextOne : (mk [] 0xFFD [1, 2]).mem.wf = true := by decide
/-- The reset state, and a full stack of the highest return addresses at the highest `pc`. -/
theorem witness_StepKeepsTheInvariant :
    (State.reset.Inv ∧ step State.reset = .next { State.reset with pc := 0x202 }) ∧
    State.Inv { State.reset with pc := 0x10FE, sp := 16, stack := Vector.replicate 16 0xFFF } :=
  ⟨⟨⟨rfl, by decide, by decide⟩, rfl⟩, ⟨rfl, by decide, by decide⟩⟩
theorem witness_EveryEventKeepsTheInvariant : State.reset.Inv := ⟨rfl, by decide, by decide⟩
theorem witness_CanonicalMemoryIsDeterminedByItsReads :
    (Memory.poke (Memory.poke [] 0x300 1) 0 0).wf = true ∧ (Memory.poke (Memory.poke [] 0 0) 0x300 1).wf = true ∧
    ∀ a, (Memory.poke (Memory.poke [] 0x300 1) 0 0).peek a = (Memory.poke (Memory.poke [] 0 0) 0x300 1).peek a :=
  ⟨by decide, by decide, fun _ => rfl⟩
theorem witness_OnlyResetLeavesTheHaltedCore :
    (run 0x0001 State.reset).halt = some ⟨.unsupportedOpcode, 0x200, some 0x0001, 1⟩ ∧ Event.tickTimers ≠ .reset := by decide
theorem witness_TimersAreReadAndWrittenAsNamed :
    step (mk [] 0x200 [0x6A, 0xB7]) = .next { (mk [] 0x200 [0x6A, 0xB7]).setV 0xA 0xB7 with pc := 0x202 } ∧
    (∀ x, decode (mk [] 0x200 [0x6A, 0xB7]).fetchWord ≠ .instr (.ldDTVx x)) ∧
    (∀ x, decode (mk [] 0x200 [0x6A, 0xB7]).fetchWord ≠ .instr (.ldSTVx x)) ∧
    exec .nop State.reset = .next { State.reset with pc := 0x202 } ∧
    (∀ x, Instr.nop ≠ .ldVxDT x) ∧ (∀ x, Instr.nop ≠ .ldDTVx x) ∧ (∀ x, Instr.nop ≠ .ldSTVx x) ∧
    Event.load [0x12] ≠ .reset ∧ Event.load [0x12] ≠ .tickTimers ∧ Event.load [0x12] ≠ .step :=
  ⟨by rfl, by decide, by decide, rfl, by decide, by decide, by decide, nofun, nofun, nofun⟩
theorem witness_KeypadIsWrittenByTheHostOnly :
    (Event.step ≠ .reset ∧ ∀ k p, Event.step ≠ .setKey k p) ∧ exec .nop State.reset = .next { State.reset with pc := 0x202 } ∧
    (∀ x, Instr.nop ≠ .skp x ∧ Instr.nop ≠ .sknp x ∧ Instr.nop ≠ .ldVxK x) ∧ State.reset.key 15 = false ∧ 15 < 16 :=
  ⟨⟨nofun, nofun⟩, rfl, by decide, rfl, by decide⟩
theorem witness_FramebufferIsWrittenByDrawClearAndReset :
    (Event.load [0x12] ≠ .reset ∧ Event.load [0x12] ≠ .step) ∧
    step State.reset = .next { State.reset with pc := 0x202 } ∧ decode State.reset.fetchWord = .instr .nop ∧
    Instr.nop ≠ .cls ∧ ∀ x y n, Instr.nop ≠ .drw x y n := ⟨⟨nofun, nofun⟩, rfl, by decide, by decide, nofun⟩
/-- Two states that differ in an entry at `SP`, and one above it. -/
theorem witness_StaleStackEntriesAreUnobservable :
    SameButStale { State.reset with sp := 1 } { State.reset with sp := 1, stack := (State.reset.stack.set 1 0x206).set 15 1 } ∧
    step { State.reset with sp := 1 } = .next { State.reset with sp := 1, pc := 0x202 } :=
  ⟨⟨rfl, by decide⟩, rfl⟩
theorem witness_EndStateIsStable : (mk [] 0x200 [0x12, 0x00]).atEnd = true := by decide
theorem witness_NopOnlyAdvances :
    ((0x0FFF#16).toNat < 0x1000 ∧ 0x0FFF#16 ≠ 0x0000#16 ∧ 0x0FFF#16 ≠ 0x00E0#16 ∧ 0x0FFF#16 ≠ 0x00EE#16) ∧
    State.reset.fetches = true ∧ State.reset.peek State.reset.pc.toNat = 0 ∧ State.reset.peek (State.reset.pc.toNat + 1) = 0 := by
  decide
/-- The lowest target a fetch faults at, by either jump. -/
theorem witness_JumpsSetThePcUnchecked :
    (let t := { State.reset with pc := 0xFFE }
     exec (.jp 0xFFE) State.reset = .next t ∧ State.reset.halt = none ∧ 0xFFE ≤ t.pc.toNat) ∧
    (let u := { mk [(0, 0xFF)] with pc := 0xEFF + 0xFF }
     exec (.jpV0 0xEFF) (mk [(0, 0xFF)]) = .next u ∧ (mk [(0, 0xFF)]).halt = none ∧ 0xFFE ≤ u.pc.toNat) :=
  ⟨⟨rfl, rfl, by decide⟩, ⟨rfl, rfl, by decide⟩⟩
theorem witness_CallPushesAndJumps :
    (State.reset.sp.val < 16) ∧ ({ State.reset with sp := 15 } : State).sp.val < 16 := by decide
theorem witness_RetPopsThePc :
    0 < ({ State.reset with sp := 1 } : State).sp.val ∧ 0 < ({ State.reset with sp := 16 } : State).sp.val := by decide
theorem witness_StackFaultsChangeOnlyTheLatch :
    ({ State.reset with sp := 16 } : State).sp.val = 16 ∧ State.reset.sp.val = 0 := by decide
theorem witness_ReturnResumesAfterTheCall :
    let t := { State.reset with sp := 1, stack := State.reset.stack.set 0 0x202, pc := 0x300 }
    State.reset.sp.val < 16 ∧ exec (.call 0x300) State.reset = .next t ∧ (run 0x6A42 t).sp = t.sp ∧ (run 0x6A42 t).stack = t.stack :=
  ⟨by decide, rfl, by decide, by decide⟩
theorem witness_RegisterSkipsCompareTheRegisters :
    digit1 0x5121#16 = 0x5 ∧ digit4 0x5121#16 ≠ 0 ∧ digit1 0x912F#16 = 0x9 ∧ digit4 0x912F#16 ≠ 0 := by decide
theorem witness_LoadsAndByteAddWriteOneRegister : (3 : Reg) = 3 := rfl
theorem witness_BitwiseOperationsActPerBit : (0xF : Reg) = Reg.vf := rfl
/-- A sum of 256, of 255, and VF as the destination, which the first clause excludes and the others include. -/
theorem witness_AddSetsTheCarry :
    (0xE : Reg) ≠ Reg.vf ∧ ((mk [(0xE, 0xFF), (1, 1)]).getV 0xE).toNat + ((mk [(0xE, 0xFF), (1, 1)]).getV 1).toNat = 256 ∧
    ((mk [(0xE, 0xFF)]).getV 0xE).toNat + ((mk [(0xE, 0xFF)]).getV 1).toNat = 255 := by decide
/-- Equality, and a difference of one. -/
theorem witness_SubtractionsSetNotBorrow :
    (0 : Reg) ≠ Reg.vf ∧ ((mk [(0, 5), (1, 5)]).getV 1).toNat ≤ ((mk [(0, 5), (1, 5)]).getV 0).toNat ∧
    ¬ ((mk [(0, 4), (1, 5)]).getV 1).toNat ≤ ((mk [(0, 4), (1, 5)]).getV 0).toNat := by decide
theorem witness_ShiftsMoveTheBitOut : (0 : Reg) ≠ Reg.vf ∧ ((mk [(0, 0x81)]).getV 0).toNat % 2 = 1 := by decide
theorem witness_BcdStoresTheDecimalDigits :
    (mk [(0, 0xFF)] 0xFFD).mem.wf = true ∧ (mk [(0, 0xFF)] 0xFFD).index.toNat + 2 ≤ 0xFFF := by decide
theorem witness_StoreCopiesRegistersToMemory :
    (mk [] 0xFF0).mem.wf = true ∧ (mk [] 0xFF0).index.toNat + (15 : Reg).val ≤ 0xFFF := by decide
theorem witness_LoadCopiesMemoryToRegisters : (mk [] 0xFFF).index.toNat + (0 : Reg).val ≤ 0xFFF := by decide
/-- Each clause one byte beyond the last range that exists. -/
theorem witness_RangeFaultsChangeOnlyTheLatch :
    0xFFF < (mk [] 0xFFE).index.toNat + 2 ∧ 0xFFF < (mk [] 0xFF1).index.toNat + (15 : Reg).val ∧
    0xFFF < (mk [] 0x1000).index.toNat + (0 : Reg).val ∧
    0 < (2 : Digit).val ∧ 0xFFF < (mk [] 0xFFF).index.toNat + ((2 : Digit).val - 1) := by decide
theorem witness_StoredRegistersLoadBack :
    let s := mk [(0, 0x12), (1, 0x08)] 0xFFE
    let t := { s with mem := [(0xFFE, 0x12), (0xFFF, 0x08)], pc := 0x202 }
    s.mem.wf = true ∧ s.index.toNat + (1 : Reg).val ≤ 0xFFF ∧ exec (.ldMemVx 1) s = .next t ∧
    (t.setV 0 0).mem = t.mem ∧ (t.setV 0 0).index = t.index := ⟨by decide, by decide, rfl, rfl, rfl⟩
/-- Fx55 with `I` at the following instruction and one below it, Fx33 with `I` at its second byte, at the top of memory; and a store
that ends below the following instruction. -/
theorem witness_NextFetchSeesTheStore :
    (let s := { mk [(0, 0x12), (1, 0x08)] 0xFFC with pc := 0xFFA }
     let t := { s with mem := [(0xFFC, 0x12), (0xFFD, 0x08)], pc := 0xFFC }
     s.mem.wf = true ∧ s.index.toNat + (1 : Reg).val ≤ 0xFFF ∧ exec (.ldMemVx 1) s = .next t ∧
     s.index.toNat + (0 : Reg).val = t.pc.toNat ∧ s.index.toNat + (1 : Reg).val = t.pc.toNat + 1) ∧
    (let s := { mk [(0, 0x12), (1, 0x08)] 0x201 with pc := 0x200 }
     let t := { s with mem := [(0x201, 0x12), (0x202, 0x08)], pc := 0x202 }
     exec (.ldMemVx 1) s = .next t ∧ s.index.toNat + (1 : Reg).val = t.pc.toNat ∧
     ∀ r : Reg, r ≤ 1 → s.index.toNat + r.val ≠ t.pc.toNat + 1) ∧
    (let s := { mk [(0, 0xFF)] 0xFFD with pc := 0xFFA }
     let t := { s with mem := [(0xFFD, 2), (0xFFE, 5), (0xFFF, 5)], pc := 0xFFC }
     s.mem.wf = true ∧ s.index.toNat + 2 ≤ 0xFFF ∧ exec (.ldBVx 0) s = .next t ∧
     s.index.toNat + (0 : Fin 3).val = t.pc.toNat + 1 ∧ ∀ k : Fin 3, s.index.toNat + k.val ≠ t.pc.toNat) ∧
    (let s := { mk [(0, 0xFF)] 0x202 with pc := 0x200 }
     let t := { s with mem := [(0x202, 2), (0x203, 5), (0x204, 5)], pc := 0x202 }
     exec (.ldBVx 0) s = .next t ∧ s.index.toNat + (0 : Fin 3).val = t.pc.toNat) :=
  ⟨⟨by decide, by decide, rfl, rfl, rfl⟩, ⟨rfl, rfl, by decide⟩, ⟨by decide, by decide, rfl, rfl, by decide⟩, ⟨rfl, rfl⟩⟩
theorem witness_RandomByteIsMasked : (0x0F#8).getLsbD 4 = false := by decide
theorem witness_KeypadSkipsTestTheKey : ((mk [(2, 15)]).getV 2).toNat < 16 := by decide
theorem witness_KeypadIndexFaultsChangeOnlyTheLatch : 15 < ((mk [(2, 16)]).getV 2).toNat := by decide
theorem witness_KeyWaitTakesTheLeastKeyOrRepeats :
    (let s := { State.reset with keys := State.reset.keys.set 15 true }
     s.key 15 = true ∧ ∀ j, j < 15 → s.key j = false) ∧ ∀ k, State.reset.key k = false := by decide
/-- A sprite of one row at the last byte of memory touches the last column; a sprite of no rows. -/
theorem witness_DrawInvertsTheTouchedPixels :
    let s := mk [(0, 63)] 0xFFF [0x80]
    ((1 : Digit).val = 0 ∨ s.index.toNat + ((1 : Digit).val - 1) ≤ 0xFFF) ∧ (0 : Digit).val = 0 ∧
    s.touches 0 1 1 63 0 ∧ ¬ s.touches 0 1 0 63 0 ∧ s.fb.pixel 63 0 = false ∧
    ({ s with fb := s.fb.flip 63 0 } : State).fb.pixel 63 0 = true :=
  ⟨.inr (by decide), rfl, ⟨0, 0, by decide, by decide, by decide, by decide, by decide⟩,
    fun ⟨_, _, h, _⟩ => absurd h (Nat.not_lt_zero _), by decide, by decide⟩
theorem witness_DrawingTwiceRestoresTheScreen :
    let s := mk [(0, 63)] 0xFFF [0x80]
    (0 : Reg) ≠ Reg.vf ∧ (1 : Reg) ≠ Reg.vf ∧ s.index.toNat + ((1 : Digit).val - 1) ≤ 0xFFF ∧
    (∃ t, exec (.drw 0 1 1) s = .next t) ∧ s.touches 0 1 1 63 0 ∧ (∀ px py, s.fb.pixel px py = false) ∧
    ∀ px py, ¬ s.touches 0 1 0 px py :=
  ⟨by decide, by decide, by decide, ⟨_, rfl⟩, ⟨0, 0, by decide, by decide, by decide, by decide, by decide⟩,
    fun px py => by simp [mk, State.reset, State.setV, State.store, State.setIndex, Framebuffer.clear, Framebuffer.pixel],
    fun _ _ ⟨_, _, h, _⟩ => absurd h (Nat.not_lt_zero _)⟩
theorem witness_ResetGivesTheResetState :
    State.reset = State.reset ∧ (79 < 80 ∧ State.reset.peek 79 = 0x80) ∧ State.reset.peek 80 = 0 := by decide
/-- The longest image, the shortest that is refused, and a byte and an address on either side of the image. -/
theorem witness_LoadCopiesTheImage :
    (List.replicate 3584 (0 : Byte)).length ≤ 3584 ∧ 3584 < (List.replicate 3585 (0 : Byte)).length ∧ State.reset.mem.wf = true ∧
    3583 < (List.replicate 3584 (0 : Byte)).length ∧ ¬ (0x200 ≤ 0x1FF ∧ 0x1FF < 0x200 + 3584) :=
  ⟨by rw [List.length_replicate], by rw [List.length_replicate]; decide, rfl, by rw [List.length_replicate]; decide, by decide⟩
theorem witness_HostIndexesAreChecked : 15 < 16 := by decide

end Sys2Proof.Test
end

