-- ==== Sys2Proof/Proofs/Peripherals.lean ====
section
/-!
PROOF. What reads and writes the screen, the keypad and the timers (spec/10_state.md R22 to R24): an instruction commutes with every
update of the parts of these that it neither reads nor writes. Its frame on such a part follows: the update to the old value is no
update.
-/
namespace Sys2Proof.Machine

/-! ### Every instruction and every step answers a next state -/

theorem exec_total (i : Instr) (s : State) : ∃ t, exec i s = .next t := by
  cases i with
  | ret => rcases execRet_cases s with ⟨_, h⟩ | ⟨_, h⟩ <;> exact ⟨_, h⟩
  | call nnn => rcases execCall_cases nnn s with ⟨_, h⟩ | ⟨_, h⟩ <;> exact ⟨_, h⟩
  | drw x y n => rcases execDrw_cases x y n s with ⟨_, h⟩ | ⟨_, _, h⟩ <;> exact ⟨_, h⟩
  | skp x => rcases execSkp_cases x s with ⟨_, h⟩ | ⟨_, h⟩ <;> exact ⟨_, h⟩
  | sknp x => rcases execSknp_cases x s with ⟨_, h⟩ | ⟨_, h⟩ <;> exact ⟨_, h⟩
  | ldVxK x => rcases execLdVxK_cases x s with ⟨_, _, h⟩ | ⟨_, h⟩ <;> exact ⟨_, h⟩
  | ldBVx x => rcases execLdBVx_cases x s with ⟨_, h⟩ | ⟨_, h⟩ <;> exact ⟨_, h⟩
  | ldMemVx x => rcases execLdMemVx_cases x s with ⟨_, h⟩ | ⟨_, h⟩ <;> exact ⟨_, h⟩
  | ldVxMem x => rcases execLdVxMem_cases x s with ⟨_, h⟩ | ⟨_, h⟩ <;> exact ⟨_, h⟩
  | _ => exact ⟨_, rfl⟩

theorem step_total (s : State) : ∃ t, step s = .next t := by
  rcases step_cases s with ⟨_, h⟩ | ⟨_, _, h⟩ | ⟨_, _, _, h⟩ | ⟨_, _, i, _, h⟩
  · exact ⟨_, h⟩
  · exact ⟨_, h⟩
  · exact ⟨_, h⟩
  · rw [h]; exact exec_total i s

/-- A part of the state that taking a fault leaves alone, and that the decoded instruction leaves alone, is kept by the step. -/
theorem step_keeps {α : Type} (get : State → α) {s t : State} (h : step s = .next t)
    (hlatch : ∀ cause w info, get (s.latch cause w info) = get s)
    (hexec : ∀ i, decode s.fetchWord = .instr i → exec i s = .next t → get t = get s) : get t = get s := by
  rcases step_cases s with ⟨_, e⟩ | ⟨_, _, e⟩ | ⟨_, _, _, e⟩ | ⟨_, _, i, hi, e⟩
  · cases e.symm.trans h; rfl
  · cases e.symm.trans h; exact hlatch ..
  · cases e.symm.trans h; exact hlatch ..
  · exact hexec i hi (e.symm.trans h)

/-! ### Updates of the screen, the keypad and the timers -/

/-- An update of each peripheral part of the state; by default it leaves the part alone. -/
structure PeripheralMap where
  fb : Framebuffer → Framebuffer := id
  keys : Vector Bool 16 → Vector Bool 16 := id
  dt : Byte → Byte := id
  st : Byte → Byte := id

/-- The state with its peripheral parts updated. -/
def State.mapPeripherals (s : State) (m : PeripheralMap) : State :=
  { s with fb := m.fb s.fb, keys := m.keys s.keys, dt := m.dt s.dt, st := m.st s.st }

@[simp] theorem State.mapPeripherals_offending (s : State) (m : PeripheralMap) (count : Nat) :
    (s.mapPeripherals m).offending count = s.offending count := rfl

@[simp] theorem State.mapPeripherals_keyOperand (s : State) (m : PeripheralMap) (x : Reg) :
    (s.mapPeripherals m).keyOperand x = s.keyOperand x := rfl

theorem State.mapPeripherals_firstKey (s : State) (m : PeripheralMap) (h : m.keys = id) :
    (s.mapPeripherals m).firstKey = s.firstKey := by
  have hk : (s.mapPeripherals m).key = s.key := funext fun k => by simp [State.key, State.mapPeripherals, h]
  rw [State.firstKey, State.firstKey, hk]

theorem State.skipIf_mapPeripherals (s : State) (m : PeripheralMap) (c : Bool) :
    (s.mapPeripherals m).skipIf c = (s.skipIf c).mapPeripherals m := by
  cases c <;> rfl

/-- The update leaves alone what the instruction reads or writes: the framebuffer (R22), the keypad (R23), the timers (R24). -/
def PeripheralMap.avoids (m : PeripheralMap) : Instr → Prop
  | .cls | .drw _ _ _ => m.fb = id
  | .skp _ | .sknp _ | .ldVxK _ => m.keys = id
  | .ldVxDT _ | .ldDTVx _ => m.dt = id
  | .ldSTVx _ => m.st = id
  | _ => True

/-- A result with its next state updated. -/
def mapNext (f : State → State) : Result → Result
  | .next t => .next (f t)
  | .fault r => .fault r
  | .refused r => .refused r

theorem execRet_mapPeripherals (s : State) (m : PeripheralMap) :
    execRet (s.mapPeripherals m) = mapNext (·.mapPeripherals m) (execRet s) := by
  rcases s.pop?_cases with ⟨h, hp⟩ | ⟨h, hp⟩
  · have hm := (s.mapPeripherals m).pop?_of_pos h
    simp only [execRet, hp, hm]; rfl
  · have hm := (s.mapPeripherals m).pop?_empty h
    simp only [execRet, hp, hm]; rfl

theorem execCall_mapPeripherals (nnn : Addr12) (s : State) (m : PeripheralMap) :
    execCall nnn (s.mapPeripherals m) = mapNext (·.mapPeripherals m) (execCall nnn s) := by
  rcases s.push?_cases s.npc with ⟨h, hp⟩ | ⟨h, hp⟩
  · have hm := (s.mapPeripherals m).push?_of_lt (s.mapPeripherals m).npc h
    simp only [execCall, hp, hm]; rfl
  · have hm := (s.mapPeripherals m).push?_full (s.mapPeripherals m).npc h
    simp only [execCall, hp, hm]; rfl

/-- An instruction commutes with every update of the peripheral parts it neither reads nor writes. -/
theorem exec_mapPeripherals (i : Instr) (s : State) (m : PeripheralMap) (hi : m.avoids i) :
    exec i (s.mapPeripherals m) = mapNext (·.mapPeripherals m) (exec i s) := by
  obtain ⟨fb, keys, dt, st⟩ := m
  cases i with
  | cls => cases hi; rfl
  | drw x y n =>
    cases hi
    simp only [exec, execDrw, State.mapPeripherals_offending]
    cases s.offending n.val <;> rfl
  | skp x =>
    cases hi
    simp only [exec, execSkp, State.mapPeripherals_keyOperand, State.skipIf_mapPeripherals]
    cases s.keyOperand x <;> rfl
  | sknp x =>
    cases hi
    simp only [exec, execSknp, State.mapPeripherals_keyOperand, State.skipIf_mapPeripherals]
    cases s.keyOperand x <;> rfl
  | ldVxK x =>
    simp only [exec, execLdVxK, s.mapPeripherals_firstKey ⟨fb, keys, dt, st⟩ hi]
    cases s.firstKey <;> rfl
  | ldVxDT x => cases hi; rfl
  | ldDTVx x => cases hi; rfl
  | ldSTVx x => cases hi; rfl
  | ret => exact execRet_mapPeripherals s _
  | call nnn => exact execCall_mapPeripherals nnn s _
  | seByte x kk => exact congrArg Host.Outcome.next (s.skipIf_mapPeripherals _ _)
  | sneByte x kk => exact congrArg Host.Outcome.next (s.skipIf_mapPeripherals _ _)
  | seReg x y => exact congrArg Host.Outcome.next (s.skipIf_mapPeripherals _ _)
  | sneReg x y => exact congrArg Host.Outcome.next (s.skipIf_mapPeripherals _ _)
  | ldBVx x =>
    simp only [exec, execLdBVx, State.mapPeripherals_offending]
    cases s.offending 3 <;> rfl
  | ldMemVx x =>
    simp only [exec, execLdMemVx, State.mapPeripherals_offending]
    cases s.offending (x.val + 1) <;> rfl
  | ldVxMem x =>
    simp only [exec, execLdVxMem, State.mapPeripherals_offending]
    cases s.offending (x.val + 1) <;> rfl
  | _ => rfl

/-- The next state is updated as the state before was. -/
theorem exec_next_mapPeripherals {i : Instr} {s t : State} (m : PeripheralMap) (h : exec i s = .next t) (hi : m.avoids i) :
    exec i (s.mapPeripherals m) = .next (t.mapPeripherals m) := by
  rw [exec_mapPeripherals i s m hi, h]; rfl

/-! ### Who reads and who writes the keypad and each timer -/

/-- Every instruction but Fx07 and Fx15 neither reads nor writes `DT` (R24). -/
theorem avoids_of_only_dt {i : Instr} (f : Byte → Byte) (h07 : ∀ x, i ≠ .ldVxDT x) (h15 : ∀ x, i ≠ .ldDTVx x) :
    PeripheralMap.avoids { dt := f } i := by
  cases i with
  | ldVxDT x => exact absurd rfl (h07 x)
  | ldDTVx x => exact absurd rfl (h15 x)
  | cls | drw | skp | sknp | ldVxK | ldSTVx => rfl
  | _ => trivial

/-- Every instruction but Fx18 neither reads nor writes `ST` (R24). -/
theorem avoids_of_only_st {i : Instr} (f : Byte → Byte) (h18 : ∀ x, i ≠ .ldSTVx x) :
    PeripheralMap.avoids { st := f } i := by
  cases i with
  | ldSTVx x => exact absurd rfl (h18 x)
  | cls | drw | skp | sknp | ldVxK | ldVxDT | ldDTVx => rfl
  | _ => trivial

/-- Every instruction but Ex9E, ExA1 and Fx0A does not read the keypad, and none writes it (R23). -/
theorem avoids_of_only_keys {i : Instr} (f : Vector Bool 16 → Vector Bool 16)
    (hk : ∀ x, i ≠ .skp x ∧ i ≠ .sknp x ∧ i ≠ .ldVxK x) : PeripheralMap.avoids { keys := f } i := by
  cases i with
  | skp x => exact absurd rfl (hk x).1
  | sknp x => exact absurd rfl (hk x).2.1
  | ldVxK x => exact absurd rfl (hk x).2.2
  | cls | drw | ldVxDT | ldDTVx | ldSTVx => rfl
  | _ => trivial

theorem exec_ignores_dt {i : Instr} {s t : State} (b : Byte) (h : exec i s = .next t)
    (h07 : ∀ x, i ≠ .ldVxDT x) (h15 : ∀ x, i ≠ .ldDTVx x) : exec i { s with dt := b } = .next { t with dt := b } :=
  exec_next_mapPeripherals { dt := fun _ => b } h (avoids_of_only_dt _ h07 h15)

theorem exec_ignores_st {i : Instr} {s t : State} (b : Byte) (h : exec i s = .next t)
    (h18 : ∀ x, i ≠ .ldSTVx x) : exec i { s with st := b } = .next { t with st := b } :=
  exec_next_mapPeripherals { st := fun _ => b } h (avoids_of_only_st _ h18)

theorem exec_ignores_keys {i : Instr} {s t : State} (ks : Vector Bool 16) (h : exec i s = .next t)
    (hk : ∀ x, i ≠ .skp x ∧ i ≠ .sknp x ∧ i ≠ .ldVxK x) : exec i { s with keys := ks } = .next { t with keys := ks } :=
  exec_next_mapPeripherals { keys := fun _ => ks } h (avoids_of_only_keys _ hk)

/-! ### What an instruction, a step and an event leave unchanged -/

/-- Updating `ST` to its old value is no update, so an instruction that ignores `ST` keeps it. -/
theorem exec_keeps_st {i : Instr} {s t : State} (h : exec i s = .next t) (h18 : ∀ x, i ≠ .ldSTVx x) : t.st = s.st := by
  have e : t = { t with st := s.st } := Host.Outcome.next.inj (h.symm.trans (exec_ignores_st s.st h h18))
  exact (congrArg State.st e :)

/-- As for `ST`; Fx07, which reads `DT`, writes `V[x]` and `pc` alone. -/
theorem exec_keeps_dt {i : Instr} {s t : State} (h : exec i s = .next t) (h15 : ∀ x, i ≠ .ldDTVx x) : t.dt = s.dt := by
  by_cases h07 : ∃ x, i = .ldVxDT x
  · obtain ⟨x, rfl⟩ := h07
    cases h; rfl
  · have e : t = { t with dt := s.dt } :=
      Host.Outcome.next.inj (h.symm.trans (exec_ignores_dt s.dt h (not_exists.mp h07) h15))
    exact (congrArg State.dt e :)

/-- As for the timers; the keypad's three readers write `V[x]`, `pc` and the latch alone. -/
theorem exec_keeps_keys {i : Instr} {s t : State} (h : exec i s = .next t) : t.keys = s.keys := by
  have of_ignores (hk : ∀ x, i ≠ .skp x ∧ i ≠ .sknp x ∧ i ≠ .ldVxK x) : t.keys = s.keys :=
    (congrArg State.keys (Host.Outcome.next.inj (h.symm.trans (exec_ignores_keys s.keys h hk))) :)
  cases i with
  | skp x =>
    rcases execSkp_cases x s with ⟨_, e⟩ | ⟨_, e⟩ <;> cases e.symm.trans h
    · exact s.skipIf_keys _
    · rfl
  | sknp x =>
    rcases execSknp_cases x s with ⟨_, e⟩ | ⟨_, e⟩ <;> cases e.symm.trans h
    · exact s.skipIf_keys _
    · rfl
  | ldVxK x => rcases execLdVxK_cases x s with ⟨_, _, e⟩ | ⟨_, e⟩ <;> cases e.symm.trans h <;> rfl
  | _ => exact of_ignores fun _ => ⟨nofun, nofun, nofun⟩

theorem step_keeps_dt {s t : State} (h : step s = .next t) (h15 : ∀ x, decode s.fetchWord ≠ .instr (.ldDTVx x)) :
    t.dt = s.dt :=
  step_keeps State.dt h (fun _ _ _ => rfl) fun _ hi hx => exec_keeps_dt hx fun x e => h15 x (e ▸ hi)

theorem step_keeps_st {s t : State} (h : step s = .next t) (h18 : ∀ x, decode s.fetchWord ≠ .instr (.ldSTVx x)) :
    t.st = s.st :=
  step_keeps State.st h (fun _ _ _ => rfl) fun _ hi hx => exec_keeps_st hx fun x e => h18 x (e ▸ hi)

theorem step_keeps_keys {s t : State} (h : step s = .next t) : t.keys = s.keys :=
  step_keeps State.keys h (fun _ _ _ => rfl) fun _ _ hx => exec_keeps_keys hx

end Sys2Proof.Machine
end

