-- ==== Sys2Proof/Proofs/HostEvents.lean ====
section
/-!
PROOF. The host's calls, case by case (spec/60_exceptions.md R177 to R183, spec/70_reset_and_hazards.md R192), and what an event can
leave unchanged.
-/
namespace Sys2Proof.Machine

/-! ### The calls that check an argument -/

theorem handle_load_of_le (bytes : List Byte) (s : State) (h : bytes.length ≤ Config.romMax) :
    handle (.load bytes) s = ({ s with mem := s.mem.pokeSpan Config.progBase bytes }, .done) := by
  rw [handle, State.load, if_neg (Nat.not_lt.mpr h)]; rfl

theorem handle_load_of_gt (bytes : List Byte) (s : State) (h : Config.romMax < bytes.length) :
    handle (.load bytes) s = (s, .refused (.romTooLarge bytes.length)) := by
  rw [handle, State.load, if_pos h]; rfl

theorem handle_setKey_of_lt (k : Nat) (p : Bool) (s : State) (h : k < Config.indexLimit) :
    handle (.setKey k p) s = ({ s with keys := s.keys.set k p }, .done) := by
  rw [handle, State.setKey, dif_pos h]; rfl

theorem handle_setKey_of_ge (k : Nat) (p : Bool) (s : State) (h : Config.indexLimit ≤ k) :
    handle (.setKey k p) s = (s, .refused (.indexOutOfRange k)) := by
  rw [handle, State.setKey, dif_neg (Nat.not_lt.mpr h)]; rfl

theorem handle_getRegister_of_lt (i : Nat) (s : State) (h : i < Config.indexLimit) :
    handle (.getRegister i) s = (s, .register (s.getV ⟨i, h⟩)) := by
  rw [handle, State.getRegister, dif_pos h]

theorem handle_getRegister_of_ge (i : Nat) (s : State) (h : Config.indexLimit ≤ i) :
    handle (.getRegister i) s = (s, .refused (.indexOutOfRange i)) := by
  rw [handle, State.getRegister, dif_neg (Nat.not_lt.mpr h)]

theorem handle_setRegister_of_lt (i : Nat) (b : Byte) (s : State) (h : i < Config.indexLimit) :
    handle (.setRegister i b) s = (s.setV ⟨i, h⟩ b, .done) := by
  rw [handle, State.setRegister, dif_pos h]; rfl

theorem handle_setRegister_of_ge (i : Nat) (b : Byte) (s : State) (h : Config.indexLimit ≤ i) :
    handle (.setRegister i b) s = (s, .refused (.indexOutOfRange i)) := by
  rw [handle, State.setRegister, dif_neg (Nat.not_lt.mpr h)]; rfl

/-! ### The keypad as a vector (R23) -/

/-- Setting a key to the state it has changes nothing (R178). -/
theorem State.keys_set_key (s : State) (k : Fin 16) : s.keys.set k (s.key k) = s.keys :=
  Vector.set_getElem_self _

theorem State.key_keys_set (s : State) (k j : Fin 16) (p : Bool) :
    ({ s with keys := s.keys.set k p } : State).key j = if j = k then p else s.key j := by
  simp only [State.key, Fin.getElem_fin, Vector.getElem_set, Fin.ext_iff, eq_comm]

/-! ### Frames of events -/

/-- The state after the event `step` is the one that the step answers. -/
theorem step_eq_next_handle (s : State) : step s = .next (handle .step s).1 := by
  obtain ⟨t, h⟩ := step_total s
  rw [handle, h]

/-- A part of the state is kept by every event but `reset()` when each event's own write keeps it. -/
theorem handle_keeps {α : Type} (get : State → α) (e : Event) (s : State) (hreset : e ≠ .reset)
    (hload : ∀ m, get { s with mem := m } = get s)
    (hstep : e = .step → ∀ t, step s = .next t → get t = get s)
    (htick : e = .tickTimers → get s.tickTimers = get s)
    (hkey : ∀ k p, e = .setKey k p → ∀ ks, get { s with keys := ks } = get s)
    (hregister : ∀ x b, get (s.setV x b) = get s) : get (handle e s).1 = get s := by
  cases e with
  | reset => exact absurd rfl hreset
  | load bytes =>
    rcases Nat.lt_or_ge Config.romMax bytes.length with h | h
    · rw [handle_load_of_gt bytes s h]
    · rw [handle_load_of_le bytes s h]; exact hload _
  | step => exact hstep rfl _ (step_eq_next_handle s)
  | tickTimers => exact htick rfl
  | setKey k p =>
    rcases Nat.lt_or_ge k Config.indexLimit with h | h
    · rw [handle_setKey_of_lt k p s h]; exact hkey k p rfl _
    · rw [handle_setKey_of_ge k p s h]
  | framebuffer => rfl
  | readSound => rfl
  | getRegister i =>
    rcases Nat.lt_or_ge i Config.indexLimit with h | h
    · rw [handle_getRegister_of_lt i s h]
    · rw [handle_getRegister_of_ge i s h]
  | setRegister i b =>
    rcases Nat.lt_or_ge i Config.indexLimit with h | h
    · rw [handle_setRegister_of_lt i b s h]; exact hregister _ b
    · rw [handle_setRegister_of_ge i b s h]

/-- No event makes `DT` larger unless it steps an Fx15 (R24): a reset clears it and a tick takes one off. -/
theorem handle_dt_le (e : Event) (s : State) (h15 : ∀ x, decode s.fetchWord ≠ .instr (.ldDTVx x)) :
    (handle e s).1.dt.toNat ≤ s.dt.toNat := by
  by_cases hreset : e = .reset
  · subst hreset; exact Nat.zero_le _
  by_cases htick : e = .tickTimers
  · subst htick; exact (tickTimer_toNat s.dt).trans_le (Nat.sub_le ..)
  · have keeps : (handle e s).1.dt = s.dt :=
      handle_keeps State.dt e s hreset (fun _ => rfl) (fun _ _ h => step_keeps_dt h h15) (absurd · htick)
        (fun _ _ _ _ => rfl) (fun _ _ => rfl)
    rw [keeps]

end Sys2Proof.Machine
end

