-- ==== Sys2Proof/Proofs/StateObligations.lean ====
section
/-!
PROOF. Statements of spec/10_state.md: registers, timers, keypad.
-/
namespace Sys2Proof.Machine

/-- Settles O21: the read after the write is the register file's law, and the host's two calls are that write and that read. -/
theorem registersHoldWhatWasLastWritten : Obligations.RegistersHoldWhatWasLastWritten := by
  intro s x r b
  exact ⟨s.getV_setV x r b, handle_setRegister_of_lt x.val b s x.isLt, handle_getRegister_of_lt r.val s r.isLt⟩

/-- The words of the three timer instructions (R143, R145, R146). -/
theorem encode_timers_toNat (x : Reg) :
    (encode (.ldVxDT x)).toNat = 0xF007 + 256 * x.val ∧ (encode (.ldDTVx x)).toNat = 0xF015 + 256 * x.val ∧
    (encode (.ldSTVx x)).toNat = 0xF018 + 256 * x.val := by
  refine ⟨?_, ?_, ?_⟩ <;> simp [encode, formatXK_toNat] <;> omega

/-- Settles O17: an instruction commutes with every update of a timer it neither reads nor writes, so it does not depend on the timer
and keeps it; steps and events inherit that. -/
theorem timersAreReadAndWrittenAsNamed : Obligations.TimersAreReadAndWrittenAsNamed := by
  refine ⟨fun x s => ⟨rfl, rfl, rfl, encode_timers_toNat x⟩,
    fun s => ⟨rfl, tickTimer_toNat s.dt, tickTimer_toNat s.st⟩, ?events, handle_dt_le,
    fun s t h => ⟨step_keeps_dt h, step_keeps_st h⟩,
    fun i s t b h => ⟨exec_ignores_dt b h, exec_ignores_st b h⟩, fun x s b => ⟨rfl, rfl⟩⟩
  case events =>
    intro e s hreset htick hstep
    exact Prod.mk.inj (handle_keeps (fun u => (u.dt, u.st)) e s hreset (fun _ => rfl) (absurd · hstep) (absurd · htick)
      (fun _ _ _ _ => rfl) (fun _ _ => rfl))

/-- Settles O18: every other event keeps the keypad, `set_key` writes one key, and an instruction that does not test keys commutes with
every update of the keypad. -/
theorem keypadIsWrittenByTheHostOnly : Obligations.KeypadIsWrittenByTheHostOnly := by
  refine ⟨?frame, ?setKey, fun s k p hk => handle_setKey_of_ge k p s hk, fun i s t ks h hk => exec_ignores_keys ks h hk⟩
  case frame =>
    intro e s hreset hkey
    exact handle_keeps State.keys e s hreset (fun _ => rfl) (fun _ _ h => step_keeps_keys h) (fun _ => rfl)
      (fun k p he => absurd he (hkey k p)) (fun _ _ => rfl)
  case setKey =>
    intro s k j p
    have e := handle_setKey_of_lt k.val p s k.isLt
    refine ⟨e, ?_, fun hp => ?_⟩
    · rw [e]; exact s.key_keys_set k j p
    · rw [e, ← hp]; exact congrArg (fun ks => ({ s with keys := ks }, Reply.done)) (s.keys_set_key k)

end Sys2Proof.Machine
end

