-- ==== Sys2Proof/Proofs/MemoryObligations.lean ====
section
/-!
PROOF. Statements of spec/20_memory.md: the byte order of a fetch (R45), and the bytes a loaded image leaves in memory (R192).
-/
namespace Sys2Proof.Machine

/-! ### The two bytes of a word (R45) -/

@[simp] theorem highByte_wordOfBytes (hi lo : Byte) : highByte (wordOfBytes hi lo) = hi := by
  have := lo.isLt
  apply BitVec.eq_of_toNat_eq; rw [highByte_toNat, wordOfBytes_toNat]; omega

@[simp] theorem lowByte_wordOfBytes (hi lo : Byte) : lowByte (wordOfBytes hi lo) = lo := by
  have := lo.isLt
  apply BitVec.eq_of_toNat_eq; rw [lowByte_toNat, wordOfBytes_toNat]; omega

theorem State.fetchWord_toNat (s : State) :
    s.fetchWord.toNat = (s.peek s.pc.toNat).toNat * 256 + (s.peek (s.pc.toNat + 1)).toNat := wordOfBytes_toNat ..

/-! ### A loaded image (R192) -/

/-- What an accepted load does: the image fits above `PROG_BASE`, and memory alone changes, by one span of writes there. -/
theorem State.load_eq_ok {s t : State} {image : List Byte} (h : s.load image = .ok t) :
    image.length ≤ Config.romMax ∧ t = { s with mem := s.mem.pokeSpan Config.progBase image } := by
  rcases Nat.lt_or_ge Config.romMax image.length with hgt | hle
  · rw [State.load, if_pos hgt] at h; cases h
  · rw [State.load, if_neg (Nat.not_lt.mpr hle)] at h; cases h
    exact ⟨hle, rfl⟩

/-- After an accepted load the byte at `0x200 + k` is the image's byte `k`. -/
theorem State.peek_of_load {s t : State} {image : List Byte} (hm : s.mem.wf = true) (h : s.load image = .ok t)
    (k : Nat) (hk : k < image.length) : t.peek (0x200 + k) = image[k] := by
  obtain ⟨hle, rfl⟩ := State.load_eq_ok h
  have hfits : Config.progBase + image.length ≤ Config.memSize := Nat.add_le_add_left hle 0x200
  have hspan := Memory.peek_pokeSpan image s.mem Config.progBase (0x200 + k) hm hfits
  rw [dif_pos ⟨Nat.le_add_right .., Nat.add_lt_add_left hk _⟩] at hspan
  simpa [State.peek] using hspan

/-- Settles O5: a word's two bytes are the two it was made of, and a fetch inside a loaded image reads two of the image's bytes. -/
theorem fetchIsBigEndian : Obligations.FetchIsBigEndian := by
  refine ⟨fun s => ⟨s.fetchWord_toNat, highByte_wordOfBytes .., lowByte_wordOfBytes ..⟩, ?image⟩
  case image =>
    intro s t image k hk hm hload hpc
    have hhigh : t.peek (0x200 + k) = image[k] := State.peek_of_load hm hload k (Nat.lt_of_succ_lt hk)
    have hlow : t.peek (0x200 + k + 1) = image[k + 1] := State.peek_of_load hm hload (k + 1) hk
    rw [t.fetchWord_toNat, hpc, hhigh, hlow]

end Sys2Proof.Machine
end

