-- ==== Sys2Proof/Proofs/DecodedWord.lean ====
section
/-!
PROOF. The decoder drops no bit (spec/30_encoding.md R61, R65): a word that decodes to an instruction is that instruction's word. Each
family's decoder reads the fields that its format is put together from.
-/
namespace Sys2Proof

theorem encode_of_decodeFamily0 {w : Word} {i : Instr} (h : decodeFamily0 w = .instr i) : encode i = w := by
  unfold decodeFamily0 at h
  split_ifs at h with hnop hcls hret
  · cases h; exact hnop.symm
  · cases h; exact hcls.symm
  · cases h; exact hret.symm

theorem encode_of_decodeFamily8 {w : Word} {i : Instr} (h1 : (digit1 w).val = 0x8)
    (h : decodeFamily8 w = .instr i) : encode i = w := by
  unfold decodeFamily8 at h
  split at h
  case h_10 => cases h
  all_goals cases h; exact formatXYN_of_fields w 0x8 _ h1 ‹_›

theorem encode_of_decodeFamilyE {w : Word} {i : Instr} (h1 : (digit1 w).val = 0xE)
    (h : decodeFamilyE w = .instr i) : encode i = w := by
  unfold decodeFamilyE at h
  split at h
  case h_3 => cases h
  all_goals cases h; exact formatXK_of_fields w 0xE _ h1 ‹_›

theorem encode_of_decodeFamilyF {w : Word} {i : Instr} (h1 : (digit1 w).val = 0xF)
    (h : decodeFamilyF w = .instr i) : encode i = w := by
  unfold decodeFamilyF at h
  split at h
  case h_10 => cases h
  all_goals cases h; exact formatXK_of_fields w 0xF _ h1 ‹_›

/-- A word that decodes to an instruction is that instruction's word. -/
theorem encode_of_decode {w : Word} {i : Instr} (h : decode w = .instr i) : encode i = w := by
  unfold decode at h
  split at h <;> rename_i h1
  · exact encode_of_decodeFamily0 h
  · cases h; exact formatA_of_fields w 0x1 h1
  · cases h; exact formatA_of_fields w 0x2 h1
  · cases h; exact formatXK_of_fields w 0x3 _ h1 rfl
  · cases h; exact formatXK_of_fields w 0x4 _ h1 rfl
  · split_ifs at h with h4
    cases h; exact formatXYN_of_fields w 0x5 0x0 h1 (congrArg Fin.val h4)
  · cases h; exact formatXK_of_fields w 0x6 _ h1 rfl
  · cases h; exact formatXK_of_fields w 0x7 _ h1 rfl
  · exact encode_of_decodeFamily8 h1 h
  · split_ifs at h with h4
    cases h; exact formatXYN_of_fields w 0x9 0x0 h1 (congrArg Fin.val h4)
  · cases h; exact formatA_of_fields w 0xA h1
  · cases h; exact formatA_of_fields w 0xB h1
  · cases h; exact formatXK_of_fields w 0xC _ h1 rfl
  · cases h; exact formatXYN_of_fields w 0xD _ h1 rfl
  · exact encode_of_decodeFamilyE h1 h
  · exact encode_of_decodeFamilyF h1 h
  · cases h

/-- The words of the 0x0nnn space are those of family 0 (R64). -/
theorem decode_of_lt_0x1000 {w : Word} (h : w.toNat < 0x1000) : decode w = decodeFamily0 w := by
  have h1 : (digit1 w).val = 0 := by rw [digit1_val]; omega
  simp only [decode, h1]

end Sys2Proof
end

