-- ==== Sys2Proof/Proofs/ControlObligations.lean ====
section
/-!
PROOF. Statements of spec/41_control_flow.md, and the step of a core that can fetch (R81, R85).
-/
namespace Sys2Proof.Machine

theorem State.fetches_iff (s : State) : s.fetches = true ↔ s.halt = none ∧ s.fetchFaults = false := by
  simp [State.fetches, State.running]

/-- A core that can fetch executes the instruction its word decodes to. -/
theorem step_of_fetches {s : State} {i : Instr} (hf : s.fetches = true) (hi : decode s.fetchWord = .instr i) :
    step s = exec i s := by
  obtain ⟨hh, hb⟩ := s.fetches_iff.mp hf
  rcases step_cases s with ⟨hhalted, _⟩ | ⟨_, hfaults, _⟩ | ⟨_, _, hillegal, _⟩ | ⟨_, _, j, hj, e⟩
  · exact absurd hh hhalted
  · cases hb.symm.trans hfaults
  · cases hi.symm.trans hillegal
  · cases hi.symm.trans hj; exact e

/-- Settles O23: only family 0 decodes to `NOP` since the decoder drops no bit, and two zero bytes at `pc` are the word 0x0000. -/
theorem nopOnlyAdvances : Obligations.NopOnlyAdvances := by
  refine ⟨fun s => rfl, fun w => ⟨?onlyZero, ?zero⟩, ?illegal, ?zeroFilled⟩
  case onlyZero => intro h; exact (encode_of_decode h).symm
  case zero => rintro rfl; rfl
  case illegal =>
    intro w hw hnop hcls hret
    rw [decode_of_lt_0x1000 hw, decodeFamily0, if_neg hnop, if_neg hcls, if_neg hret]
  case zeroFilled =>
    intro s hf hhigh hlow
    have hword : s.fetchWord = 0x0000#16 := by rw [State.fetchWord, hhigh, hlow]; rfl
    have hnop : decode s.fetchWord = .instr .nop := by rw [hword]; rfl
    exact step_of_fetches hf hnop

end Sys2Proof.Machine
end

