-- ==== Sys2Proof/Proofs/SkipObligations.lean ====
section
/-!
PROOF. Statements of spec/42_skips.md: the skips on a byte and on a second register (R100 to R103).
-/
namespace Sys2Proof.Machine

/-! ### The skip rule as one update of `pc` -/

theorem State.skipIf_beq (s : State) (a b : Byte) :
    s.skipIf (a == b) = { s with pc := if a = b then s.pc + 2 + 2 else s.pc + 2 } := by
  by_cases h : a = b
  · rw [if_pos h, beq_iff_eq.mpr h]; rfl
  · rw [if_neg h, beq_eq_false_iff_ne.mpr h]; rfl

theorem State.skipIf_bne (s : State) (a b : Byte) :
    s.skipIf (a != b) = { s with pc := if a = b then s.pc + 2 else s.pc + 2 + 2 } := by
  by_cases h : a = b
  · rw [if_pos h, bne_eq_false_iff_eq.mpr h]; rfl
  · rw [if_neg h, bne_iff_ne.mpr h]; rfl

/-! ### The four instructions -/

theorem exec_seByte (x : Reg) (kk : Byte) (s : State) :
    exec (.seByte x kk) s = .next { s with pc := if s.getV x = kk then s.pc + 2 + 2 else s.pc + 2 } :=
  congrArg Host.Outcome.next (s.skipIf_beq (s.getV x) kk)

theorem exec_sneByte (x : Reg) (kk : Byte) (s : State) :
    exec (.sneByte x kk) s = .next { s with pc := if s.getV x = kk then s.pc + 2 else s.pc + 2 + 2 } :=
  congrArg Host.Outcome.next (s.skipIf_bne (s.getV x) kk)

theorem exec_seReg (x y : Reg) (s : State) :
    exec (.seReg x y) s = .next { s with pc := if s.getV x = s.getV y then s.pc + 2 + 2 else s.pc + 2 } :=
  congrArg Host.Outcome.next (s.skipIf_beq (s.getV x) (s.getV y))

theorem exec_sneReg (x y : Reg) (s : State) :
    exec (.sneReg x y) s = .next { s with pc := if s.getV x = s.getV y then s.pc + 2 else s.pc + 2 + 2 } :=
  congrArg Host.Outcome.next (s.skipIf_bne (s.getV x) (s.getV y))

/-- The words of the two byte skips (R100, R101). -/
theorem encode_byteSkips_toNat (x : Reg) (kk : Byte) :
    (encode (.seByte x kk)).toNat = 0x3000 + 256 * x.val + kk.toNat ∧
    (encode (.sneByte x kk)).toNat = 0x4000 + 256 * x.val + kk.toNat := by
  constructor <;> simp [encode, formatXK_toNat] <;> omega

/-- The words of the two register skips (R102, R103). -/
theorem encode_registerSkips_toNat (x y : Reg) :
    (encode (.seReg x y)).toNat = 0x5000 + 256 * x.val + 16 * y.val ∧
    (encode (.sneReg x y)).toNat = 0x9000 + 256 * x.val + 16 * y.val := by
  constructor <;> simp [encode, formatXYN_toNat] <;> omega

/-- Families 5 and 9 have one instruction each, with last digit 0 (R64). -/
theorem decode_registerSkip_illegal {w : Word} (h1 : digit1 w = 0x5 ∨ digit1 w = 0x9) (h4 : digit4 w ≠ 0) :
    decode w = .unsupportedOpcode w := by
  rcases h1 with h5 | h9
  · rw [decode, h5]; exact if_neg h4
  · rw [decode, h9]; exact if_neg h4

/-- Settles O29: each byte skip is one update of `pc`, by the rule for the comparison it makes. -/
theorem byteSkipsCompareTheRegister : Obligations.ByteSkipsCompareTheRegister := fun x kk s =>
  ⟨exec_seByte x kk s, exec_sneByte x kk s, encode_byteSkips_toNat x kk⟩

/-- Settles O30: each register skip is one update of `pc`, and with `x = y` the comparison is of a register with itself. -/
theorem registerSkipsCompareTheRegisters : Obligations.RegisterSkipsCompareTheRegisters := by
  refine ⟨fun x y s => ?skips, fun w h1 h4 => decode_registerSkip_illegal h1 h4⟩
  case skips =>
    obtain ⟨hse, hsne⟩ := encode_registerSkips_toNat x y
    refine ⟨exec_seReg x y s, exec_sneReg x y s, hse, hsne, ?sameRegister⟩
    case sameRegister =>
      rintro rfl
      exact ⟨by rw [exec_seReg, if_pos rfl], by rw [exec_sneReg, if_pos rfl]⟩

end Sys2Proof.Machine
end

