-- ==== Sys2Proof/Proofs/LoadAluObligations.lean ====
section
/-!
PROOF. Statements of spec/43_load_alu.md: the instructions that write one register and no flag (R110 to R115).
-/
namespace Sys2Proof.Machine

/-! ### One register written, then `pc <- npc` -/

/-- Writing a register with the byte it holds changes no register (R112 to R114 with `x = y`). -/
theorem State.v_set_getV (s : State) (x : Reg) : s.v.set x (s.getV x) = s.v :=
  Vector.set_getElem_self _

/-- The register that was written holds the result in the next state. -/
theorem State.setV_advance_getV (s : State) (x : Reg) (b : Byte) : (s.setV x b).advance.getV x = b :=
  (State.advance_getV ..).trans (s.getV_setV_same x b)

/-- The next state is the old one with `V[x]` at its new value and `pc` at `npc`: `VF` is written only when it is `V[x]`. -/
theorem State.setV_advance_eq (s : State) (x : Reg) (b : Byte) :
    (s.setV x b).advance = { s with v := s.v.set x ((s.setV x b).advance.getV x), pc := s.pc + 2 } := by
  rw [State.setV_advance_getV]; rfl

/-! ### The six instructions -/

theorem exec_ldByte (x : Reg) (kk : Byte) (s : State) : exec (.ldByte x kk) s = .next (s.setV x kk).advance := rfl

theorem exec_addByte (x : Reg) (kk : Byte) (s : State) :
    exec (.addByte x kk) s = .next (s.setV x (s.getV x + kk)).advance := rfl

theorem exec_ldReg (x y : Reg) (s : State) : exec (.ldReg x y) s = .next (s.setV x (s.getV y)).advance := rfl

theorem exec_orReg (x y : Reg) (s : State) :
    exec (.orReg x y) s = .next (s.setV x (s.getV x ||| s.getV y)).advance := rfl

theorem exec_andReg (x y : Reg) (s : State) :
    exec (.andReg x y) s = .next (s.setV x (s.getV x &&& s.getV y)).advance := rfl

theorem exec_xorReg (x y : Reg) (s : State) :
    exec (.xorReg x y) s = .next (s.setV x (s.getV x ^^^ s.getV y)).advance := rfl

/-- The words of the two loads and of the byte add (R110 to R112). -/
theorem encode_loads_toNat (x y : Reg) (kk : Byte) :
    (encode (.ldByte x kk)).toNat = 0x6000 + 256 * x.val + kk.toNat ∧
    (encode (.addByte x kk)).toNat = 0x7000 + 256 * x.val + kk.toNat ∧
    (encode (.ldReg x y)).toNat = 0x8000 + 256 * x.val + 16 * y.val := by
  refine ⟨?_, ?_, ?_⟩ <;> simp [encode, formatXK_toNat, formatXYN_toNat] <;> omega

/-- The words of the three bitwise operations (R113 to R115). -/
theorem encode_bitwise_toNat (x y : Reg) :
    (encode (.orReg x y)).toNat = 0x8001 + 256 * x.val + 16 * y.val ∧
    (encode (.andReg x y)).toNat = 0x8002 + 256 * x.val + 16 * y.val ∧
    (encode (.xorReg x y)).toNat = 0x8003 + 256 * x.val + 16 * y.val := by
  refine ⟨?_, ?_, ?_⟩ <;> simp [encode, formatXYN_toNat] <;> omega

/-- Settles O31: each of the three is one register write, `get_register` reads what the write left, and `LD Vx, Vx` writes a register
with the byte it holds. -/
theorem loadsAndByteAddWriteOneRegister : Obligations.LoadsAndByteAddWriteOneRegister := by
  intro x y kk s
  refine ⟨_, _, _, exec_ldByte x kk s, rfl, ?read, exec_addByte x kk s, ?sum, s.setV_advance_eq x _, exec_ldReg x y s, rfl,
    ?sameRegister, encode_loads_toNat x y kk⟩
  case read => rw [handle_getRegister_of_lt x.val _ x.isLt, State.setV_advance_getV]
  case sum => rw [State.setV_advance_getV, BitVec.toNat_add]
  case sameRegister => rintro rfl; exact s.v_set_getV x

/-- Settles O32: each of the three is one register write of an operation on bit vectors, which acts on each bit; of a byte with itself OR
and AND are that byte and exclusive OR is 0. -/
theorem bitwiseOperationsActPerBit : Obligations.BitwiseOperationsActPerBit := by
  intro x y s
  refine ⟨_, _, _, exec_orReg x y s, exec_andReg x y s, exec_xorReg x y s, fun k => ?orBit, fun k => ?andBit, fun k => ?xorBit,
    s.setV_advance_eq x _, s.setV_advance_eq x _, s.setV_advance_eq x _, ?sameRegister, encode_bitwise_toNat x y⟩
  case orBit => rw [State.setV_advance_getV, BitVec.getLsbD_or]
  case andBit => rw [State.setV_advance_getV, BitVec.getLsbD_and]
  case xorBit => rw [State.setV_advance_getV, BitVec.getLsbD_xor]
  case sameRegister =>
    rintro rfl
    rw [State.setV_advance_getV, BitVec.or_self, BitVec.and_self, BitVec.xor_self]
    exact ⟨s.v_set_getV x, s.v_set_getV x, rfl⟩

end Sys2Proof.Machine
end

