-- ==== Sys2Proof/Proofs/IndexMemoryObligations.lean ====
section
/-!
PROOF. Statements of spec/44_index_memory.md: the two loads of `I` (R130, R132).
-/
namespace Sys2Proof.Machine

/-- Zero-extension keeps an address immediate's number (R63). -/
@[simp] theorem addrOperand_toNat (nnn : Addr12) : (addrOperand nnn).toNat = nnn.toNat :=
  BitVec.toNat_setWidth_of_le (by decide)

/-- Zero-extension keeps a byte's number (R132). -/
@[simp] theorem byteOperand_toNat (b : Byte) : (byteOperand b).toNat = b.toNat :=
  BitVec.toNat_setWidth_of_le (by decide)

/-- Five times a byte is at most 1275, so the product of R132 never wraps. -/
theorem byteOperand_mul_glyphBytes_toNat (b : Byte) :
    (byteOperand b * BitVec.ofNat 16 Config.glyphBytes).toNat = 5 * b.toNat := by
  have hb : b.toNat < 256 := b.isLt
  rw [BitVec.toNat_mul, byteOperand_toNat, BitVec.toNat_ofNat, Config.glyphBytes]
  omega

/-- Loading `I` and going on to `npc` changes `I` and `pc` only. -/
theorem State.setIndex_advance_eq (s : State) (a : Word) :
    (s.setIndex a).advance = { s with index := (s.setIndex a).advance.index, pc := s.pc + 2 } := rfl

theorem exec_ldI (nnn : Addr12) (s : State) : exec (.ldI nnn) s = .next (s.setIndex (addrOperand nnn)).advance := rfl

theorem exec_ldFVx (x : Reg) (s : State) :
    exec (.ldFVx x) s = .next (s.setIndex (byteOperand (s.getV x) * BitVec.ofNat 16 Config.glyphBytes)).advance := rfl

/-- The words of the two loads of `I` (R130, R132). -/
theorem encode_indexLoads_toNat (nnn : Addr12) (x : Reg) :
    (encode (.ldI nnn)).toNat = 0xA000 + nnn.toNat ∧ (encode (.ldFVx x)).toNat = 0xF029 + 256 * x.val := by
  constructor
  · simp [encode, formatA_toNat]
  · simp [encode, formatXK_toNat]; omega

/-- Settles O36: each load is one write of `I`, of the zero-extended immediate or of five times the whole register. -/
theorem indexLoadsAreExact : Obligations.IndexLoadsAreExact := by
  intro nnn x s
  refine ⟨_, _, exec_ldI nnn s, s.setIndex_advance_eq _, ?immediate, exec_ldFVx x s, s.setIndex_advance_eq _, ?glyph,
    encode_indexLoads_toNat nnn x⟩
  case immediate => rw [State.advance_index, State.setIndex_index, addrOperand_toNat]
  case glyph => rw [State.advance_index, State.setIndex_index, byteOperand_mul_glyphBytes_toNat]

end Sys2Proof.Machine
end

