-- ==== Sys2Proof/Proofs/KeypadObligations.lean ====
section
/-!
PROOF. Statements of spec/45_random_keypad_timers.md: the key wait `LD Vx, K` (R144).
-/
namespace Sys2Proof.Machine

/-- `pc <- npc - 2` is `pc <- pc0`, at the wrapping end of the counter too: writing it leaves the state as it was (R144). -/
theorem State.setPc_npc_sub_two (s : State) : s.setPc (s.npc - 2) = s :=
  congrArg s.setPc (BitVec.add_sub_cancel s.pc 2)

/-- With a pressed key the wait is one register write of the least one's number. -/
theorem exec_ldVxK_of_firstKey_eq_some (x : Reg) {s : State} {k : Fin 16} (hk : s.firstKey = some k) :
    exec (.ldVxK x) s = .next (s.setV x (BitVec.ofNat 8 k.val)).advance := by
  rcases execLdVxK_cases x s with ⟨j, hj, hexec⟩ | ⟨hnone, _⟩
  · cases hk.symm.trans hj; exact hexec
  · cases hk.symm.trans hnone

/-- With no pressed key the wait answers the state it started from. -/
theorem exec_ldVxK_of_firstKey_eq_none (x : Reg) {s : State} (hnone : s.firstKey = none) :
    exec (.ldVxK x) s = .next s := by
  rcases execLdVxK_cases x s with ⟨k, hk, _⟩ | ⟨_, hexec⟩
  · cases hnone.symm.trans hk
  · rw [State.setPc_npc_sub_two] at hexec; exact hexec

/-- A key's number fits in a register. -/
theorem keyByte_toNat (k : Fin 16) : (BitVec.ofNat 8 k.val).toNat = k.val :=
  Nat.mod_eq_of_lt (by omega)

/-- The word of the key wait (R144). -/
theorem encode_ldVxK_toNat (x : Reg) : (encode (.ldVxK x)).toNat = 0xF00A + 256 * x.val := by
  simp [encode, formatXK_toNat]; omega

/-- Settles O47: the scan's answer decides the step: the least pressed key is one register write, and no pressed key sends `pc` back to where
it was. -/
theorem keyWaitTakesTheLeastKeyOrRepeats : Obligations.KeyWaitTakesTheLeastKeyOrRepeats := by
  refine ⟨fun x s k hpressed hleast => ?pressed, fun x s hnone => ?notPressed, encode_ldVxK_toNat⟩
  case pressed =>
    have hk : s.firstKey = some k := (s.firstKey_eq_some k).mpr ⟨hpressed, hleast⟩
    refine ⟨_, exec_ldVxK_of_firstKey_eq_some x hk, ?value, s.setV_advance_eq x _⟩
    case value => rw [State.setV_advance_getV, keyByte_toNat]
  case notPressed => exact exec_ldVxK_of_firstKey_eq_none x (s.firstKey_eq_none.mpr hnone)

end Sys2Proof.Machine
end

