-- ==== Sys2Proof/Proofs/EncodingObligations.lean ====
section
/-!
PROOF. Statements of spec/30_encoding.md: the decoder inverts the encoder, follows the opcode table and rejects the words of R66.
-/
namespace Sys2Proof

/-! ### Decoding a word that the encoder built (R62, R64) -/

/-- Each format's fields read back what was put into them, so the decode tree ends at the constructor that was encoded. -/
theorem decode_encode (i : Instr) : decode (encode i) = .instr i := by
  cases i with
  | nop | cls | ret => rfl
  | jp | call | ldI | jpV0 => simp [encode, decode]
  | seByte | sneByte | ldByte | addByte | rnd => simp [encode, decode]
  | seReg | sneReg | drw => simp [encode, decode]
  | ldReg | orReg | andReg | xorReg | addReg | subReg | shr | subnReg | shl => simp [encode, decode, decodeFamily8]
  | skp | sknp => simp [encode, decode, decodeFamilyE]
  | ldVxDT | ldVxK | ldDTVx | ldSTVx | addIVx | ldFVx | ldBVx | ldMemVx | ldVxMem => simp [encode, decode, decodeFamilyF]

/-- Settles O1: the fields of each format read back the operands, and the decoder drops no bit. -/
theorem encodeAndDecodeAreInverse : Obligations.EncodeAndDecodeAreInverse :=
  ⟨decode_encode, fun _ _ => encode_of_decode⟩

/-! ### The rows of the opcode table (R65) -/

/-- An instruction's row fits its word. -/
theorem row_fits_encode (i : Instr) : i.row.fits (encode i) = true := by
  cases i with
  | nop | cls | ret => rfl
  | jp nnn => exact (Laws.OpcodeRow.jp nnn).1
  | call nnn => exact (Laws.OpcodeRow.call nnn).1
  | seByte x kk => exact (Laws.OpcodeRow.seByte x kk).1
  | sneByte x kk => exact (Laws.OpcodeRow.sneByte x kk).1
  | seReg x y => exact (Laws.OpcodeRow.seReg x y).1
  | ldByte x kk => exact (Laws.OpcodeRow.ldByte x kk).1
  | addByte x kk => exact (Laws.OpcodeRow.addByte x kk).1
  | ldReg x y => exact (Laws.OpcodeRow.ldReg x y).1
  | orReg x y => exact (Laws.OpcodeRow.orReg x y).1
  | andReg x y => exact (Laws.OpcodeRow.andReg x y).1
  | xorReg x y => exact (Laws.OpcodeRow.xorReg x y).1
  | addReg x y => exact (Laws.OpcodeRow.addReg x y).1
  | subReg x y => exact (Laws.OpcodeRow.subReg x y).1
  | shr x y => exact (Laws.OpcodeRow.shr x y).1
  | subnReg x y => exact (Laws.OpcodeRow.subnReg x y).1
  | shl x y => exact (Laws.OpcodeRow.shl x y).1
  | sneReg x y => exact (Laws.OpcodeRow.sneReg x y).1
  | ldI nnn => exact (Laws.OpcodeRow.ldI nnn).1
  | jpV0 nnn => exact (Laws.OpcodeRow.jpV0 nnn).1
  | rnd x kk => exact (Laws.OpcodeRow.rnd x kk).1
  | drw x y n => exact (Laws.OpcodeRow.drw x y n).1
  | skp x => exact (Laws.OpcodeRow.skp x).1
  | sknp x => exact (Laws.OpcodeRow.sknp x).1
  | ldVxDT x => exact (Laws.OpcodeRow.ldVxDT x).1
  | ldVxK x => exact (Laws.OpcodeRow.ldVxK x).1
  | ldDTVx x => exact (Laws.OpcodeRow.ldDTVx x).1
  | ldSTVx x => exact (Laws.OpcodeRow.ldSTVx x).1
  | addIVx x => exact (Laws.OpcodeRow.addIVx x).1
  | ldFVx x => exact (Laws.OpcodeRow.ldFVx x).1
  | ldBVx x => exact (Laws.OpcodeRow.ldBVx x).1
  | ldMemVx x => exact (Laws.OpcodeRow.ldMemVx x).1
  | ldVxMem x => exact (Laws.OpcodeRow.ldVxMem x).1

theorem row_mem_opcodeTable (i : Instr) : i.row ∈ opcodeTable := by
  cases i <;> simp [opcodeTable, Instr.row]

/-- Every row of the table is an instruction's. -/
theorem exists_row_eq {r : OpcodeRow} (h : r ∈ opcodeTable) : ∃ j : Instr, j.row = r := by
  obtain ⟨j, -, hj⟩ := List.mem_map.mp h
  exact ⟨j, hj⟩

/-- A row with mask 0xF000 fixes the first digit. -/
theorem digit1_of_mask_F000 {w p : Word} (h : (w &&& 0xF000#16 == p) = true) : digit1 w = digit1 p := by
  rw [← eq_of_beq h, word_mask_F000, digit1_formatXYN]

/-- A row with mask 0xF00F fixes the first and the last digit. -/
theorem digits_of_mask_F00F {w p : Word} (h : (w &&& 0xF00F#16 == p) = true) :
    digit1 w = digit1 p ∧ digit4 w = digit4 p := by
  rw [← eq_of_beq h, word_mask_F00F, digit1_formatXYN, digit4_formatXYN]
  exact ⟨rfl, rfl⟩

/-- A row with mask 0xF0FF fixes the first digit and the low byte. -/
theorem digit1_byteField_of_mask_F0FF {w p : Word} (h : (w &&& 0xF0FF#16 == p) = true) :
    digit1 w = digit1 p ∧ byteField w = byteField p := by
  rw [← eq_of_beq h, word_mask_F0FF, digit1_formatXYN]
  refine ⟨rfl, BitVec.eq_of_toNat_eq ?_⟩
  rw [byteField_toNat, byteField_toNat, formatXYN_toNat, digit3_val, digit4_val]
  omega

/-- A row with mask 0xFFFF fixes the word. -/
theorem eq_of_mask_FFFF {w p : Word} (h : (w &&& 0xFFFF#16 == p) = true) : w = p :=
  BitVec.and_allOnes.symm.trans (eq_of_beq h)

/-- The digits that a row fixes are the ones the decode tree selects by, so a word that the row fits decodes to an instruction of
that row. -/
theorem decode_of_row_fits (j : Instr) {w : Word} (h : j.row.fits w = true) : ∃ k, decode w = .instr k ∧ k.row = j.row := by
  unfold OpcodeRow.fits at h
  cases j with
  | nop | cls | ret => cases eq_of_mask_FFFF h; exact ⟨_, rfl, rfl⟩
  | jp | call | ldI | jpV0 | seByte | sneByte | ldByte | addByte | rnd | drw =>
    simp only [Instr.row] at h
    have h1 := digit1_of_mask_F000 h
    exact ⟨_, by rw [decode, h1]; rfl, by rfl⟩
  | seReg | sneReg =>
    simp only [Instr.row] at h
    obtain ⟨h1, h4⟩ := digits_of_mask_F00F h
    exact ⟨_, by rw [decode, h1]; exact if_pos h4, by rfl⟩
  | ldReg | orReg | andReg | xorReg | addReg | subReg | shr | subnReg | shl =>
    simp only [Instr.row] at h
    obtain ⟨h1, h4⟩ := digits_of_mask_F00F h
    exact ⟨_, by rw [decode, h1]; change decodeFamily8 w = _; rw [decodeFamily8, h4]; rfl, by rfl⟩
  | skp | sknp =>
    simp only [Instr.row] at h
    obtain ⟨h1, hk⟩ := digit1_byteField_of_mask_F0FF h
    exact ⟨_, by rw [decode, h1]; change decodeFamilyE w = _; rw [decodeFamilyE, hk]; rfl, by rfl⟩
  | ldVxDT | ldVxK | ldDTVx | ldSTVx | addIVx | ldFVx | ldBVx | ldMemVx | ldVxMem =>
    simp only [Instr.row] at h
    obtain ⟨h1, hk⟩ := digit1_byteField_of_mask_F0FF h
    exact ⟨_, by rw [decode, h1]; change decodeFamilyF w = _; rw [decodeFamilyF, hk]; rfl, by rfl⟩

/-- Settles O2: a row that fits a word makes it decode to an instruction of that row, so the decoded instruction's row is the only one
that fits, and no row fits a rejected word. -/
theorem decoderFollowsTheOpcodeTable : Obligations.DecoderFollowsTheOpcodeTable := by
  intro w
  rcases decode_cases w with ⟨i, hi⟩ | hw
  · refine .inl ⟨i, hi, row_mem_opcodeTable i, fun r hr => ⟨fun hfits => ?only, ?own⟩⟩
    case only =>
      obtain ⟨j, rfl⟩ := exists_row_eq hr
      obtain ⟨k, hk, hrow⟩ := decode_of_row_fits j hfits
      cases hi.symm.trans hk; exact hrow.symm
    case own => rintro rfl; rw [← encode_of_decode hi]; exact row_fits_encode i
  · refine .inr ⟨hw, fun r hr => Bool.eq_false_iff.mpr fun hfits => ?_⟩
    obtain ⟨j, rfl⟩ := exists_row_eq hr
    obtain ⟨k, hk, -⟩ := decode_of_row_fits j hfits
    cases hw.symm.trans hk

/-! ### The illegal words (R66) -/

theorem decodeFamily0_illegal_iff (w : Word) :
    decodeFamily0 w = .unsupportedOpcode w ↔ w ≠ 0x0000#16 ∧ w ≠ 0x00E0#16 ∧ w ≠ 0x00EE#16 := by
  unfold decodeFamily0
  split_ifs <;> simp [*]

theorem decodeFamily8_illegal_iff (w : Word) :
    decodeFamily8 w = .unsupportedOpcode w ↔ digit4 w ∈ [0x8, 0x9, 0xA, 0xB, 0xC, 0xD, 0xF] := by
  unfold decodeFamily8
  generalize digit4 w = d
  fin_cases d <;> simp

theorem decodeFamilyE_illegal_iff (w : Word) :
    decodeFamilyE w = .unsupportedOpcode w ↔ byteField w ∉ [0x9E#8, 0xA1#8] := by
  unfold decodeFamilyE
  split <;> simp_all [← BitVec.toNat_inj]

theorem decodeFamilyF_illegal_iff (w : Word) :
    decodeFamilyF w = .unsupportedOpcode w ↔
      byteField w ∉ [0x07#8, 0x0A#8, 0x15#8, 0x18#8, 0x1E#8, 0x29#8, 0x33#8, 0x55#8, 0x65#8] := by
  unfold decodeFamilyF
  split <;> simp_all [← BitVec.toNat_inj]

/-- Settles O3: the first digit selects the family, and within each family the decode tree says which words it rejects. -/
theorem illegalWordsByFamily : Obligations.IllegalWordsByFamily := by
  intro w
  unfold decode
  generalize digit1 w = family
  fin_cases family <;>
    simp [decodeFamily0_illegal_iff, decodeFamily8_illegal_iff, decodeFamilyE_illegal_iff, decodeFamilyF_illegal_iff]

/-- Settles O4: the sixteen words run through the decoder. -/
theorem exampleWordsDecode : Obligations.ExampleWordsDecode := by
  unfold Obligations.ExampleWordsDecode
  decide

end Sys2Proof
end

