-- ==== Sys2Proof/Proofs/Frames.lean ====
section
/-!
PROOF. The frame of every instruction (spec/10_state.md R12, R17, R18, R21, R22, R24, R43): one lemma per update of the state, and the frame
of a next state put together along the updates that made it.
-/
namespace Sys2Proof.Machine

/-! ### What each update keeps -/

theorem Frame.refl (f : Footprint) (s : State) : Frame f s s :=
  ⟨fun _ _ => rfl, fun _ => rfl, fun _ => ⟨rfl, rfl⟩, fun _ _ => rfl, fun _ => rfl, rfl, fun _ => rfl, fun _ => rfl, rfl, fun _ => rfl⟩

section
variable {f : Footprint} {s t : State}

theorem Frame.setPc (h : Frame f s t) (target : Word) : Frame f s (t.setPc target) :=
  ⟨h.regs, h.index, h.stack, h.memory, h.screen, h.keys, h.dt, h.st, h.halt, h.draws⟩

theorem Frame.advance (h : Frame f s t) : Frame f s t.advance := h.setPc t.npc

theorem Frame.skipIf (h : Frame f s t) (condition : Bool) : Frame f s (t.skipIf condition) := by
  cases condition
  · exact h.advance
  · exact h.setPc (t.npc + 2)

theorem Frame.setV (h : Frame f s t) (x : Reg) (b : Byte) (hx : x ∈ f.regs) : Frame f s (t.setV x b) where
  regs r hr := (t.getV_setV_other x r b (ne_of_mem_of_not_mem hx hr).symm).trans (h.regs r hr)
  index := h.index
  stack := h.stack
  memory := h.memory
  screen := h.screen
  keys := h.keys
  dt := h.dt
  st := h.st
  halt := h.halt
  draws := h.draws

theorem Frame.resultThenFlag (h : Frame f s t) (x : Reg) (result : Byte) (flag : Bool) (hx : x ∈ f.regs)
    (hvf : Reg.vf ∈ f.regs) : Frame f s (t.resultThenFlag x result flag) :=
  (h.setV x result hx).setV Reg.vf (flagByte flag) hvf

theorem Frame.flagThenResult (h : Frame f s t) (x : Reg) (result : Byte) (flag : Bool) (hx : x ∈ f.regs)
    (hvf : Reg.vf ∈ f.regs) : Frame f s (t.flagThenResult x result flag) :=
  (h.setV Reg.vf (flagByte flag) hvf).setV x result hx

theorem Frame.setIndex (h : Frame f s t) (a : Word) (hf : f.index = true) : Frame f s (t.setIndex a) :=
  ⟨h.regs, fun hn => absurd hf (Bool.eq_false_iff.mp hn), h.stack, h.memory, h.screen, h.keys, h.dt, h.st, h.halt, h.draws⟩

theorem Frame.setStack (h : Frame f s t) (sp : Fin 17) (stack : Vector Word 16) (hf : f.stack = true) :
    Frame f s (t.setStack sp stack) :=
  ⟨h.regs, h.index, fun hn => absurd hf (Bool.eq_false_iff.mp hn), h.memory, h.screen, h.keys, h.dt, h.st, h.halt, h.draws⟩

theorem Frame.setFB (h : Frame f s t) (fb : Framebuffer) (hf : f.screen = true) : Frame f s (t.setFB fb) :=
  ⟨h.regs, h.index, h.stack, h.memory, fun hn => absurd hf (Bool.eq_false_iff.mp hn), h.keys, h.dt, h.st, h.halt, h.draws⟩

theorem Frame.setDT (h : Frame f s t) (b : Byte) (hf : f.dt = true) : Frame f s (t.setDT b) :=
  ⟨h.regs, h.index, h.stack, h.memory, h.screen, h.keys, fun hn => absurd hf (Bool.eq_false_iff.mp hn), h.st, h.halt, h.draws⟩

theorem Frame.setST (h : Frame f s t) (b : Byte) (hf : f.st = true) : Frame f s (t.setST b) :=
  ⟨h.regs, h.index, h.stack, h.memory, h.screen, h.keys, h.dt, fun hn => absurd hf (Bool.eq_false_iff.mp hn), h.halt, h.draws⟩

theorem Frame.drawn (h : Frame f s t) (hf : f.draws = true) : Frame f s t.drawn :=
  ⟨h.regs, h.index, h.stack, h.memory, h.screen, h.keys, h.dt, h.st, h.halt, fun hn => absurd hf (Bool.eq_false_iff.mp hn)⟩

/-- A store at `I` of no more bytes than the footprint counts. -/
theorem Frame.store (f : Footprint) (s : State) (bytes : List Byte) (hb : bytes.length ≤ f.stores) : Frame f s (s.store bytes) :=
  ⟨fun _ _ => rfl, fun _ => rfl, fun _ => ⟨rfl, rfl⟩, fun a ha => s.store_peek_outside bytes a (by omega), fun _ => rfl, rfl,
    fun _ => rfl, fun _ => rfl, rfl, fun _ => rfl⟩

/-- Fx65 writes no register above `x`. -/
theorem Frame.loadRegisters (f : Footprint) (s : State) (x : Reg) (hf : ∀ r : Reg, r.val ≤ x.val → r ∈ f.regs) :
    Frame f s (s.loadRegisters x) where
  regs r hr := by rw [State.loadRegisters_getV, if_neg fun hle => hr (hf r hle)]
  index _ := s.loadRegisters_index x
  stack _ := ⟨s.loadRegisters_sp x, s.loadRegisters_stack x⟩
  memory a _ := s.loadRegisters_peek x a
  screen _ := s.loadRegisters_fb x
  keys := s.loadRegisters_keys x
  dt _ := s.loadRegisters_dt x
  st _ := s.loadRegisters_st x
  halt := s.loadRegisters_halt x
  draws _ := s.loadRegisters_draws x

end

/-! ### Every instruction -/

/-- What an instruction can do: its own check passes and everything outside its footprint is kept, or its check fails and the one change is
the latched record of its word (R84, R85, R160). -/
theorem exec_cases (i : Instr) (s : State) :
    (s.dutiesMet i = true ∧ ∃ t, exec i s = .next t ∧ Frame (footprint i) s t) ∨
    (s.dutiesMet i = false ∧ ∃ cause info, exec i s = .next (s.latch cause (some (encode i)) info)) := by
  cases i with
  | nop | jp | jpV0 => exact .inl ⟨rfl, _, rfl, (Frame.refl _ s).setPc _⟩
  | seByte | sneByte | seReg | sneReg => exact .inl ⟨rfl, _, rfl, (Frame.refl _ s).skipIf _⟩
  | cls => exact .inl ⟨rfl, _, rfl, ((Frame.refl _ s).setFB _ rfl).advance⟩
  | ldByte | addByte | ldReg | orReg | andReg | xorReg | ldVxDT =>
    exact .inl ⟨rfl, _, rfl, ((Frame.refl _ s).setV _ _ (List.mem_singleton_self _)).advance⟩
  | addReg | subReg | subnReg =>
    exact .inl ⟨rfl, _, rfl, ((Frame.refl _ s).resultThenFlag _ _ _ (by simp [footprint]) (by simp [footprint])).advance⟩
  | shr | shl =>
    exact .inl ⟨rfl, _, rfl, ((Frame.refl _ s).flagThenResult _ _ _ (by simp [footprint]) (by simp [footprint])).advance⟩
  | ldI | addIVx | ldFVx => exact .inl ⟨rfl, _, rfl, ((Frame.refl _ s).setIndex _ rfl).advance⟩
  | rnd => exact .inl ⟨rfl, _, rfl, (((Frame.refl _ s).setV _ _ (List.mem_singleton_self _)).drawn rfl).advance⟩
  | ldDTVx => exact .inl ⟨rfl, _, rfl, ((Frame.refl _ s).setDT _ rfl).advance⟩
  | ldSTVx => exact .inl ⟨rfl, _, rfl, ((Frame.refl _ s).setST _ rfl).advance⟩
  | ret =>
    rcases execRet_cases s with ⟨h, e⟩ | ⟨h, e⟩
    · exact .inl ⟨decide_eq_true h, _, e, ((Frame.refl _ s).setStack _ _ rfl).setPc _⟩
    · exact .inr ⟨decide_eq_false (by omega), _, _, e⟩
  | call nnn =>
    rcases execCall_cases nnn s with ⟨h, e⟩ | ⟨h, e⟩
    · exact .inl ⟨decide_eq_true h, _, e, ((Frame.refl _ s).setStack _ _ rfl).setPc _⟩
    · exact .inr ⟨decide_eq_false (by omega), _, _, e⟩
  | drw x y n =>
    rcases execDrw_cases x y n s with ⟨h, e⟩ | ⟨hn, h, e⟩
    · refine .inl ⟨?_, _, e, (((Frame.refl _ s).setFB _ rfl).setV _ _ (List.mem_singleton_self _)).advance⟩
      simp only [State.dutiesMet, Bool.or_eq_true, decide_eq_true_eq]; omega
    · refine .inr ⟨?_, _, _, e⟩
      simp only [State.dutiesMet, Bool.or_eq_false_iff, decide_eq_false_iff_not]; omega
  | skp x =>
    rcases execSkp_cases x s with ⟨h, e⟩ | ⟨h, e⟩
    · exact .inl ⟨decide_eq_true (by omega), _, e, (Frame.refl _ s).skipIf _⟩
    · exact .inr ⟨decide_eq_false (by omega), _, _, e⟩
  | sknp x =>
    rcases execSknp_cases x s with ⟨h, e⟩ | ⟨h, e⟩
    · exact .inl ⟨decide_eq_true (by omega), _, e, (Frame.refl _ s).skipIf _⟩
    · exact .inr ⟨decide_eq_false (by omega), _, _, e⟩
  | ldVxK x =>
    rcases execLdVxK_cases x s with ⟨k, _, e⟩ | ⟨_, e⟩
    · exact .inl ⟨rfl, _, e, ((Frame.refl _ s).setV _ _ (List.mem_singleton_self _)).advance⟩
    · exact .inl ⟨rfl, _, e, (Frame.refl _ s).setPc _⟩
  | ldBVx x =>
    rcases execLdBVx_cases x s with ⟨h, e⟩ | ⟨h, e⟩
    · exact .inl ⟨decide_eq_true (by omega), _, e, (Frame.store _ s _ le_rfl).advance⟩
    · exact .inr ⟨decide_eq_false (by omega), _, _, e⟩
  | ldMemVx x =>
    rcases execLdMemVx_cases x s with ⟨h, e⟩ | ⟨h, e⟩
    · exact .inl ⟨decide_eq_true (by omega), _, e, (Frame.store _ s _ (s.length_registersUpTo x).le).advance⟩
    · exact .inr ⟨decide_eq_false (by omega), _, _, e⟩
  | ldVxMem x =>
    rcases execLdVxMem_cases x s with ⟨h, e⟩ | ⟨h, e⟩
    · exact .inl ⟨decide_eq_true (by omega), _, e, (Frame.loadRegisters _ s x fun r hr => by simpa [footprint] using hr).advance⟩
    · exact .inr ⟨decide_eq_false (by omega), _, _, e⟩

/-- An instruction whose check passes answers a next state within its footprint. -/
theorem exec_frame {i : Instr} {s t : State} (h : exec i s = .next t) (hd : s.dutiesMet i = true) : Frame (footprint i) s t := by
  rcases exec_cases i s with ⟨_, u, e, hu⟩ | ⟨hn, _⟩
  · cases e.symm.trans h; exact hu
  · cases hn.symm.trans hd

/-- Settles O10: the two things an instruction can do, a frame or a fault. -/
theorem everyInstructionKeepsItsFrame : Obligations.EveryInstructionKeepsItsFrame := by
  intro i s
  rcases exec_cases i s with ⟨_, t, e, hframe⟩ | ⟨_, cause, info, e⟩
  · exact ⟨t, e, .inl hframe⟩
  · exact ⟨_, e, .inr ⟨cause, info, rfl⟩⟩

end Sys2Proof.Machine
end

