-- ==== Sys2Proof/Proofs/StepObligations.lean ====
section
/-!
PROOF. Statements of spec/40_step_cycle.md: the checks of a step in their order, its faults, and the instruction it executes.
-/
namespace Sys2Proof.Machine

/-! ### A step by its checks (R85, R86) -/

theorem step_of_halted {s : State} (hh : s.halt ≠ none) : step s = .next s := by
  rcases step_cases s with ⟨_, e⟩ | ⟨h, _⟩ | ⟨h, _⟩ | ⟨h, _⟩
  · exact e
  all_goals exact absurd h hh

theorem step_of_fetchFaults {s : State} (hh : s.halt = none) (hpc : 0xFFE ≤ s.pc.toNat) :
    step s = .next (s.latch .addressOutOfRange none s.pc.toNat) := by
  have hf := s.fetchFaults_iff.mpr hpc
  rcases step_cases s with ⟨h, _⟩ | ⟨_, _, e⟩ | ⟨_, h, _⟩ | ⟨_, h, _⟩
  · exact absurd hh h
  · exact e
  all_goals cases hf.symm.trans h

theorem State.fetches_of_lt {s : State} (hh : s.halt = none) (hpc : s.pc.toNat < 0xFFE) : s.fetches = true :=
  s.fetches_iff.mpr ⟨hh, s.fetchFaults_eq_false.mpr hpc⟩

theorem step_of_illegal {s : State} {w : Word} (hh : s.halt = none) (hpc : s.pc.toNat < 0xFFE)
    (hw : decode s.fetchWord = .unsupportedOpcode w) :
    step s = .next (s.latch .unsupportedOpcode (some s.fetchWord) s.fetchWord.toNat) := by
  have hf := s.fetchFaults_eq_false.mpr hpc
  rcases step_cases s with ⟨h, _⟩ | ⟨_, h, _⟩ | ⟨_, _, _, e⟩ | ⟨_, _, i, hi, _⟩
  · exact absurd hh h
  · cases hf.symm.trans h
  · exact e
  · cases hw.symm.trans hi

/-- Settles O6: below the fetch limit a core that is not halted can fetch. -/
theorem stepRunsTheDecodedInstruction : Obligations.StepRunsTheDecodedInstruction :=
  fun _ _ hh hpc hi => step_of_fetches (State.fetches_of_lt hh hpc) hi

/-- Settles O7: one lemma for each check. -/
theorem stepChecksInOrder : Obligations.StepChecksInOrder :=
  fun _ => ⟨step_of_halted, step_of_fetchFaults, fun _ => step_of_illegal⟩

/-- Settles O8: a fault before decode records the fetched word unless there is none, and an executed instruction records its own word,
which is the fetched one because the decoder drops no bit. -/
theorem stepIsTotalAndFaultsArePrecise : Obligations.StepIsTotalAndFaultsArePrecise := by
  intro s
  rcases step_cases s with ⟨_, e⟩ | ⟨hh, hf, e⟩ | ⟨hh, hf, _, e⟩ | ⟨hh, hf, i, hi, e⟩
  · exact ⟨s, e, .inl rfl⟩
  · exact ⟨_, e, .inr ⟨hh, _, rfl, rfl, (if_pos (s.fetchFaults_iff.mp hf)).symm⟩⟩
  · have hpc := Nat.not_le.mpr (s.fetchFaults_eq_false.mp hf)
    exact ⟨_, e, .inr ⟨hh, _, rfl, rfl, (if_neg hpc).symm⟩⟩
  · rcases exec_cases i s with ⟨_, t, ht, hframe⟩ | ⟨_, cause, info, ht⟩
    · exact ⟨t, e.trans ht, .inl hframe.halt⟩
    · have hpc := Nat.not_le.mpr (s.fetchFaults_eq_false.mp hf)
      rw [encode_of_decode hi] at ht
      exact ⟨_, e.trans ht, .inr ⟨hh, _, rfl, rfl, (if_neg hpc).symm⟩⟩

/-- Settles O9: a fault before execution contradicts the right side's fetch or decode, and after decode the instruction's own check
decides. -/
theorem stepFaultsExactlyWhenACheckFails : Obligations.StepFaultsExactlyWhenACheckFails := by
  intro s hh
  rcases step_cases s with ⟨h, _⟩ | ⟨_, hf, e⟩ | ⟨_, _, hw, e⟩ | ⟨_, hf, i, hi, e⟩
  · exact absurd hh h
  · have hpc := s.fetchFaults_iff.mp hf
    exact ⟨_, e, iff_of_false nofun fun ⟨hlt, _⟩ => absurd hpc (Nat.not_le.mpr hlt)⟩
  · exact ⟨_, e, iff_of_false nofun fun ⟨_, j, hj, _⟩ => by cases hw.symm.trans hj⟩
  · rcases exec_cases i s with ⟨hd, t, ht, hframe⟩ | ⟨hd, cause, info, ht⟩
    · exact ⟨t, e.trans ht, iff_of_true (hframe.halt.trans hh) ⟨s.fetchFaults_eq_false.mp hf, i, hi, hd⟩⟩
    · refine ⟨_, e.trans ht, iff_of_false nofun fun ⟨_, j, hj, hdj⟩ => ?_⟩
      cases hi.symm.trans hj
      cases hd.symm.trans hdj

/-! ### An instruction placed at the fetch address (R60) -/

theorem tableWord_sixteen (w : Word) : tableWord 16 w.toNat = w := by
  apply BitVec.eq_of_toNat_eq
  rw [tableWord, BitVec.toNat_ofNat, Nat.mod_mod, Nat.mod_eq_of_lt w.isLt]

/-- The placed word lies below the fetch limit. -/
theorem State.withFetchWord_pc_lt (s : State) (nbits w : Nat) : (s.withFetchWord nbits w).pc.toNat < 0xFFE := by
  change (if s.fetchFaults then Config.resetPc else s.pc).toNat < 0xFFE
  cases hf : s.fetchFaults
  · exact s.fetchFaults_eq_false.mp hf
  · rw [if_pos rfl]; decide

/-- The fetch reads the two bytes that were placed. -/
theorem State.withFetchWord_fetchWord (s : State) (nbits w : Nat) (hm : s.mem.wf = true) :
    (s.withFetchWord nbits w).fetchWord = tableWord nbits w := by
  have hpc := s.withFetchWord_pc_lt nbits w
  have hpeek (a : Nat) : (s.withFetchWord nbits w).peek a =
      (s.mem.pokeSpan (s.withFetchWord nbits w).pc.toNat [highByte (tableWord nbits w), lowByte (tableWord nbits w)]).peek a := rfl
  have hspan := fun a => Memory.peek_pokeSpan [highByte (tableWord nbits w), lowByte (tableWord nbits w)] s.mem
    (s.withFetchWord nbits w).pc.toNat a hm (by simp; omega)
  rw [State.fetchWord, hpeek, hpeek, hspan, hspan, dif_pos (by simp), dif_pos (by simp)]
  simp

/-- Settles O11: the placed core can fetch, and it fetches the placed word, which decodes to the instruction it encodes. -/
theorem placedInstructionIsTheNextOne : Obligations.PlacedInstructionIsTheNextOne := by
  intro s i hm
  have hdecode : decode (s.withFetchWord 16 (encode i).toNat).fetchWord = .instr i := by
    rw [State.withFetchWord_fetchWord _ _ _ hm, tableWord_sixteen, decode_encode]
  exact step_of_fetches (State.fetches_of_lt rfl (State.withFetchWord_pc_lt ..)) hdecode

/-! ### The end state (R195) -/

/-- In an end state the core can fetch a jump to its own address. -/
theorem State.jp_self_of_atEnd {s : State} (h : s.atEnd = true) :
    ∃ nnn, decode s.fetchWord = .instr (.jp nnn) ∧ s.fetches = true ∧ addrOperand nnn = s.pc := by
  unfold State.atEnd at h
  split at h
  next nnn hi =>
    obtain ⟨hf, hpc⟩ := Bool.and_eq_true_iff.mp h
    exact ⟨nnn, hi, hf, eq_of_beq hpc⟩
  next => cases h

/-- Settles O22: the step executes the jump, and writing `pc` with the address it holds changes nothing. -/
theorem endStateIsStable : Obligations.EndStateIsStable := by
  intro s h
  obtain ⟨nnn, hi, hf, hpc⟩ := State.jp_self_of_atEnd h
  calc step s = .next (s.setPc (addrOperand nnn)) := step_of_fetches hf hi
    _ = .next s := by rw [hpc]; rfl

end Sys2Proof.Machine
end

