-- ==== Sys2Proof/Proofs/InvariantObligations.lean ====
section
/-!
PROOF. The invariant of the machine (spec/10_state.md R16, spec/20_memory.md section 1): it holds at reset, every update that a meaning makes
keeps it, and so every instruction, every step and every event does. And a canonical memory is determined by its reads.
-/
namespace Sys2Proof.Machine

/-! ### What each update needs to keep the invariant -/

theorem State.npc_toNat {s : State} (hpc : s.pc.toNat < 0xFFE) : s.npc.toNat = s.pc.toNat + 2 := by
  rw [State.npc, BitVec.toNat_add]
  exact Nat.mod_eq_of_lt (by simp; omega)

section
variable {s : State}

/-- The invariant speaks of memory, `pc`, `SP` and the stack only. -/
theorem State.Inv.congr {t : State} (h : s.Inv) (hm : t.mem = s.mem) (hpc : t.pc = s.pc) (hsp : t.sp = s.sp)
    (hstack : t.stack = s.stack) : t.Inv :=
  ⟨hm ▸ h.memory, hpc ▸ h.pc, fun k hk => by rw [hstack]; exact h.stack k (hsp ▸ hk)⟩

theorem State.Inv.setPc (h : s.Inv) {target : Word} (ht : target.toNat ≤ 0x10FE) : (s.setPc target).Inv :=
  ⟨h.memory, ht, h.stack⟩

theorem State.Inv.advance (h : s.Inv) (hpc : s.pc.toNat < 0xFFE) : s.advance.Inv :=
  h.setPc (by rw [State.npc_toNat hpc]; omega)

theorem State.Inv.skipIf (h : s.Inv) (hpc : s.pc.toNat < 0xFFE) (condition : Bool) : (s.skipIf condition).Inv := by
  cases condition
  · exact h.advance hpc
  · refine h.setPc ?_
    rw [BitVec.toNat_add, State.npc_toNat hpc, Nat.mod_eq_of_lt (by simp; omega)]
    simp; omega

theorem State.Inv.setV (h : s.Inv) (x : Reg) (b : Byte) : (s.setV x b).Inv := ⟨h.memory, h.pc, h.stack⟩

theorem State.Inv.latch (h : s.Inv) (cause : FaultCause) (w : Option Word) (info : Nat) : (s.latch cause w info).Inv :=
  ⟨h.memory, h.pc, h.stack⟩

theorem State.Inv.store (h : s.Inv) (bytes : List Byte) : (s.store bytes).Inv :=
  ⟨Memory.wf_pokeSpan bytes s.mem _ h.memory, h.pc, h.stack⟩

/-- A push below the fetch limit leaves `npc`, at most 0xFFF, in the new entry (R16, R19). -/
theorem State.Inv.push (h : s.Inv) (hpc : s.pc.toNat < 0xFFE) (hsp : s.sp.val < 16) :
    (s.setStack ⟨s.sp.val + 1, by omega⟩ (s.stack.set s.sp.val s.npc)).Inv := by
  refine ⟨h.memory, h.pc, fun k hk => ?_⟩
  simp only [State.setStack_stack, State.setStack_sp, Fin.getElem_fin, Vector.getElem_set] at hk ⊢
  split
  · rw [State.npc_toNat hpc]; omega
  · exact h.stack k (by omega)

/-- A pop leaves fewer entries occupied (R20). -/
theorem State.Inv.pop (h : s.Inv) (hsp : 0 < s.sp.val) : (s.setStack ⟨s.sp.val - 1, by omega⟩ s.stack).Inv :=
  ⟨h.memory, h.pc, fun k hk => h.stack k (Nat.lt_of_lt_of_le hk (Nat.sub_le ..))⟩

end

/-! ### Instructions, steps and events -/

theorem addrOperand_add_byteOperand_toNat (nnn : Addr12) (b : Byte) :
    (addrOperand nnn + byteOperand b).toNat = nnn.toNat + b.toNat := by
  have := nnn.isLt
  have := b.isLt
  rw [BitVec.toNat_add, addrOperand_toNat, byteOperand_toNat]
  exact Nat.mod_eq_of_lt (by omega)

theorem exec_keeps_inv {i : Instr} {s t : State} (h : s.Inv) (hpc : s.pc.toNat < 0xFFE) (he : exec i s = .next t) : t.Inv := by
  cases i with
  | nop => cases he; exact h.advance hpc
  | jp nnn => cases he; exact h.setPc (by rw [addrOperand_toNat]; omega)
  | jpV0 nnn =>
    have := (s.getV Reg.v0).isLt
    cases he; exact h.setPc (by rw [addrOperand_add_byteOperand_toNat]; omega)
  | ret =>
    rcases execRet_cases s with ⟨hsp, e⟩ | ⟨_, e⟩ <;> cases e.symm.trans he
    · have htop : s.stack[s.sp.val - 1].toNat ≤ 0xFFF := h.stack ⟨s.sp.val - 1, by omega⟩ (Nat.sub_lt hsp (by decide))
      exact (h.pop hsp).setPc (by omega)
    · exact h.latch ..
  | call nnn =>
    rcases execCall_cases nnn s with ⟨hsp, e⟩ | ⟨_, e⟩ <;> cases e.symm.trans he
    · exact (h.push hpc hsp).setPc (by rw [addrOperand_toNat]; omega)
    · exact h.latch ..
  | seByte | sneByte | seReg | sneReg => cases he; exact h.skipIf hpc _
  | ldByte | addByte | ldReg | orReg | andReg | xorReg | ldVxDT => cases he; exact (h.setV _ _).advance hpc
  | addReg | subReg | subnReg | shr | shl => cases he; exact ((h.setV _ _).setV _ _).advance hpc
  | cls | rnd | ldI | addIVx | ldFVx | ldDTVx | ldSTVx =>
    cases he; exact State.Inv.advance (h.congr rfl rfl rfl rfl) hpc
  | drw x y n =>
    rcases execDrw_cases x y n s with ⟨_, e⟩ | ⟨_, _, e⟩ <;> cases e.symm.trans he
    · exact State.Inv.advance (h.congr rfl rfl rfl rfl) hpc
    · exact h.latch ..
  | skp x =>
    rcases execSkp_cases x s with ⟨_, e⟩ | ⟨_, e⟩ <;> cases e.symm.trans he
    · exact h.skipIf hpc _
    · exact h.latch ..
  | sknp x =>
    rcases execSknp_cases x s with ⟨_, e⟩ | ⟨_, e⟩ <;> cases e.symm.trans he
    · exact h.skipIf hpc _
    · exact h.latch ..
  | ldVxK x =>
    rcases execLdVxK_cases x s with ⟨_, _, e⟩ | ⟨_, e⟩ <;> cases e.symm.trans he
    · exact (h.setV _ _).advance hpc
    · rw [State.setPc_npc_sub_two]; exact h
  | ldBVx x =>
    rcases execLdBVx_cases x s with ⟨_, e⟩ | ⟨_, e⟩ <;> cases e.symm.trans he
    · exact (h.store _).advance hpc
    · exact h.latch ..
  | ldMemVx x =>
    rcases execLdMemVx_cases x s with ⟨_, e⟩ | ⟨_, e⟩ <;> cases e.symm.trans he
    · exact (h.store _).advance hpc
    · exact h.latch ..
  | ldVxMem x =>
    rcases execLdVxMem_cases x s with ⟨_, e⟩ | ⟨_, e⟩ <;> cases e.symm.trans he
    · have hload := h.congr (s.loadRegisters_mem x) (s.loadRegisters_pc x) (s.loadRegisters_sp x) (s.loadRegisters_stack x)
      exact hload.advance hpc
    · exact h.latch ..

theorem step_keeps_inv {s t : State} (h : s.Inv) (hs : step s = .next t) : t.Inv := by
  rcases step_cases s with ⟨_, e⟩ | ⟨_, _, e⟩ | ⟨_, _, _, e⟩ | ⟨_, hf, i, _, e⟩
  · cases e.symm.trans hs; exact h
  · cases e.symm.trans hs; exact h.latch ..
  · cases e.symm.trans hs; exact h.latch ..
  · exact exec_keeps_inv h (s.fetchFaults_eq_false.mp hf) (e.symm.trans hs)

/-- Settles O12: an instruction is executed below the fetch limit only, where its updates keep the invariant, and a fault changes the latch
alone. -/
theorem stepKeepsTheInvariant : Obligations.StepKeepsTheInvariant := fun _ _ => step_keeps_inv

/-- Settles O13: nothing is stored, `pc` is 0x200 and the stack is empty. -/
theorem invariantHoldsAtReset : Obligations.InvariantHoldsAtReset :=
  ⟨rfl, by decide, fun _ hk => absurd hk (Nat.not_lt_zero _)⟩

/-- Settles O14: a reset leads to the reset state, a load writes memory alone, a step keeps the invariant, and the other events touch nothing
it speaks of. -/
theorem everyEventKeepsTheInvariant : Obligations.EveryEventKeepsTheInvariant := by
  intro e s h
  cases e with
  | reset => exact State.Inv.congr invariantHoldsAtReset rfl rfl rfl rfl
  | load bytes =>
    rcases Nat.lt_or_ge Config.romMax bytes.length with hl | hl
    · rw [handle_load_of_gt bytes s hl]; exact h
    · rw [handle_load_of_le bytes s hl]; exact ⟨Memory.wf_pokeSpan bytes s.mem _ h.memory, h.pc, h.stack⟩
  | step => exact step_keeps_inv h (step_eq_next_handle s)
  | tickTimers => exact h.congr rfl rfl rfl rfl
  | setKey k p =>
    rcases Nat.lt_or_ge k Config.indexLimit with hk | hk
    · rw [handle_setKey_of_lt k p s hk]; exact h.congr rfl rfl rfl rfl
    · rw [handle_setKey_of_ge k p s hk]; exact h
  | framebuffer | readSound => exact h
  | getRegister i =>
    rcases Nat.lt_or_ge i Config.indexLimit with hi | hi
    · rw [handle_getRegister_of_lt i s hi]; exact h
    · rw [handle_getRegister_of_ge i s hi]; exact h
  | setRegister i b =>
    rcases Nat.lt_or_ge i Config.indexLimit with hi | hi
    · rw [handle_setRegister_of_lt i b s hi]; exact h.setV _ b
    · rw [handle_setRegister_of_ge i b s hi]; exact h

/-! ### Canonical memory (20_memory.md section 1) -/

theorem Memory.peek_head (a : Nat) (v : Byte) (m : Memory) : Memory.peek ((a, v) :: m) a = v := if_pos rfl

theorem Memory.peek_tail {a b : Nat} (v : Byte) (m : Memory) (h : b ≠ a) : Memory.peek ((a, v) :: m) b = m.peek b := if_neg h

theorem Memory.wfFrom_cons_iff (lo a : Nat) (v : Byte) (m : Memory) :
    Memory.wfFrom lo ((a, v) :: m) = true ↔ (lo ≤ a ∧ a < Config.memSize) ∧ v ≠ Memory.blank a ∧ Memory.wfFrom (a + 1) m = true := by
  simp [Memory.wfFrom, and_assoc]

/-- The first listed cell of a canonical memory is no reset content, so a canonical memory with the same reads lists a cell there or
below. -/
theorem Memory.not_wfFrom_above_head {a lo : Nat} {v : Byte} {m m' : Memory} (hv : v ≠ Memory.blank a)
    (hread : m'.peek a = Memory.peek ((a, v) :: m) a) (hlo : a < lo) : ¬ Memory.wfFrom lo m' = true := fun hwf =>
  hv ((Memory.peek_head a v m).symm.trans (hread.symm.trans (Memory.peek_below m' lo a hwf hlo)))

/-- Lists in canonical form with the same reads agree cell by cell: neither's first cell lies below the other's, so both list the same
byte there, and the rests read alike. -/
theorem Memory.eq_of_peek_eq : ∀ (m m' : Memory) (lo lo' : Nat), Memory.wfFrom lo m = true → Memory.wfFrom lo' m' = true →
    (∀ a, m.peek a = m'.peek a) → m = m'
  | [], [], _, _, _, _, _ => rfl
  | [], (b, w) :: m', _, _, _, h', hread =>
    have hw := ((Memory.wfFrom_cons_iff ..).mp h').2.1
    absurd rfl (Memory.not_wfFrom_above_head (lo := b + 1) hw (hread b) (Nat.lt_succ_self b))
  | (a, v) :: m, [], _, _, h, _, hread =>
    have hv := ((Memory.wfFrom_cons_iff ..).mp h).2.1
    absurd rfl (Memory.not_wfFrom_above_head (lo := a + 1) hv (hread a).symm (Nat.lt_succ_self a))
  | (a, v) :: m, (b, w) :: m', lo, lo', h, h', hread => by
    obtain ⟨⟨-, ha⟩, hv, hm⟩ := (Memory.wfFrom_cons_iff ..).mp h
    obtain ⟨⟨-, hb⟩, hw, hm'⟩ := (Memory.wfFrom_cons_iff ..).mp h'
    have hab : ¬ a < b := fun hlt =>
      Memory.not_wfFrom_above_head hv (hread a).symm hlt ((Memory.wfFrom_cons_iff ..).mpr ⟨⟨le_rfl, hb⟩, hw, hm'⟩)
    have hba : ¬ b < a := fun hlt =>
      Memory.not_wfFrom_above_head hw (hread b) hlt ((Memory.wfFrom_cons_iff ..).mpr ⟨⟨le_rfl, ha⟩, hv, hm⟩)
    obtain rfl : a = b := by omega
    have hvw : v = w := by simpa only [Memory.peek_head] using hread a
    have htail (c : Nat) : Memory.peek m c = Memory.peek m' c := by
      by_cases hc : c = a
      · rw [hc, Memory.peek_below m (a + 1) a hm (Nat.lt_succ_self a), Memory.peek_below m' (a + 1) a hm' (Nat.lt_succ_self a)]
      · simpa only [Memory.peek_tail _ _ hc] using hread c
    rw [hvw, Memory.eq_of_peek_eq m m' (a + 1) (a + 1) hm hm' htail]

/-- Settles O15: the canonical form lists exactly the cells that do not read as their reset content, in one order. -/
theorem canonicalMemoryIsDeterminedByItsReads : Obligations.CanonicalMemoryIsDeterminedByItsReads :=
  fun m m' h h' => Memory.eq_of_peek_eq m m' 0 0 h h'

end Sys2Proof.Machine
end

