-- ==== Sys2Proof/Proofs/StackObligations.lean ====
section
/-!
PROOF. Statements of spec/41_control_flow.md on the jumps, the call and the return (R91 to R94), and the unobservable part of the stack
(spec/10_state.md R18).
-/
namespace Sys2Proof.Machine

/-! ### Jumps (R92, R94) -/

/-- A target of 0xFFE or more makes the next step of a running core fault. -/
theorem step_setPc_of_fetchFaults {s : State} {target : Word} (hh : s.halt = none) (ht : 0xFFE ≤ target.toNat) :
    step (s.setPc target) = .next { s.setPc target with halt := some ⟨.addressOutOfRange, target, none, target.toNat⟩ } :=
  step_of_fetchFaults (s := s.setPc target) hh ht

/-- Settles O24: each jump is one write of `pc`, with the exact sum for `JP V0`. -/
theorem jumpsSetThePcUnchecked : Obligations.JumpsSetThePcUnchecked := by
  intro nnn s
  exact ⟨_, _, rfl, rfl, addrOperand_toNat nnn, step_setPc_of_fetchFaults, rfl, rfl,
    addrOperand_add_byteOperand_toNat nnn (s.getV Reg.v0), step_setPc_of_fetchFaults⟩

/-! ### The call and the return by the number of entries (R91, R93) -/

theorem exec_call_of_lt (nnn : Addr12) {s : State} (h : s.sp.val < 16) :
    exec (.call nnn) s =
      .next ((s.setStack ⟨s.sp.val + 1, by omega⟩ (s.stack.set s.sp.val s.npc)).setPc (addrOperand nnn)) := by
  rcases execCall_cases nnn s with ⟨_, e⟩ | ⟨hfull, _⟩
  · exact e
  · omega

theorem exec_call_of_full (nnn : Addr12) {s : State} (h : s.sp.val = 16) :
    exec (.call nnn) s = .next (s.latch .stackOverflow (some (encode (.call nnn))) 16) := by
  rcases execCall_cases nnn s with ⟨hlt, _⟩ | ⟨_, e⟩
  · omega
  · rw [h] at e; exact e

theorem exec_ret_of_pos {s : State} (h : 0 < s.sp.val) :
    exec .ret s = .next ((s.setStack ⟨s.sp.val - 1, by omega⟩ s.stack).setPc s.stack[s.sp.val - 1]) := by
  rcases execRet_cases s with ⟨_, e⟩ | ⟨hempty, _⟩
  · exact e
  · omega

theorem exec_ret_of_empty {s : State} (h : s.sp.val = 0) :
    exec .ret s = .next (s.latch .stackUnderflow (some (encode .ret)) 0) := by
  rcases execRet_cases s with ⟨hpos, _⟩ | ⟨_, e⟩
  · omega
  · rw [h] at e; exact e

/-- Settles O25: the push writes one entry, and the jump writes `pc`. -/
theorem callPushesAndJumps : Obligations.CallPushesAndJumps := by
  intro nnn s h
  refine ⟨_, exec_call_of_lt nnn h, addrOperand_toNat nnn, rfl, Vector.getElem_set_self _, fun k hk => ?others,
    ((Frame.refl _ s).setStack _ _ rfl).setPc _⟩
  case others => exact Vector.getElem_set_ne h k.isLt (Ne.symm hk)

/-- Settles O26: the pop reads one entry and leaves the stack as it is. -/
theorem retPopsThePc : Obligations.RetPopsThePc := fun s h =>
  ⟨_, exec_ret_of_pos h, rfl, rfl, rfl, ((Frame.refl _ s).setStack _ _ rfl).setPc _⟩

/-- Settles O27: the two failing checks of the stack. -/
theorem stackFaultsChangeOnlyTheLatch : Obligations.StackFaultsChangeOnlyTheLatch :=
  fun _ nnn => ⟨exec_call_of_full nnn, exec_ret_of_empty⟩

/-- Settles O28: the return pops the entry that the call pushed. -/
theorem returnResumesAfterTheCall : Obligations.ReturnResumesAfterTheCall := by
  intro nnn s t u hlt hcall hsp hstack
  cases (exec_call_of_lt nnn hlt).symm.trans hcall
  have hval : u.sp.val = s.sp.val + 1 := congrArg Fin.val hsp
  refine ⟨_, exec_ret_of_pos (s := u) (by omega), ?pc, Fin.ext ?sp⟩
  case pc =>
    simp only [State.setPc_pc, hval, hstack, State.setPc_stack, State.setStack_stack, Nat.add_sub_cancel, Vector.getElem_set_self]
    rfl
  case sp => simp [hval]

/-! ### Stale stack entries (R18) -/

/-- Every instruction but the call and the return commutes with every update of `SP` and the stack. -/
theorem exec_setStack (i : Instr) (s : State) (sp : Fin 17) (stack : Vector Word 16) (hret : i ≠ .ret)
    (hcall : ∀ nnn, i ≠ .call nnn) : exec i (s.setStack sp stack) = mapNext (·.setStack sp stack) (exec i s) := by
  have hoffending (count : Nat) : (s.setStack sp stack).offending count = s.offending count := rfl
  have hkey (x : Reg) : (s.setStack sp stack).keyOperand x = s.keyOperand x := rfl
  have hskip (c : Bool) : (s.setStack sp stack).skipIf c = (s.skipIf c).setStack sp stack := by cases c <;> rfl
  cases i with
  | ret => exact absurd rfl hret
  | call nnn => exact absurd rfl (hcall nnn)
  | seByte | sneByte | seReg | sneReg => exact congrArg Host.Outcome.next (hskip _)
  | drw x y n =>
    simp only [exec, execDrw, hoffending]
    cases s.offending n.val <;> rfl
  | skp x =>
    simp only [exec, execSkp, hkey, hskip]
    cases s.keyOperand x <;> rfl
  | sknp x =>
    simp only [exec, execSknp, hkey, hskip]
    cases s.keyOperand x <;> rfl
  | ldVxK x =>
    have hfirst : (s.setStack sp stack).firstKey = s.firstKey := rfl
    simp only [exec, execLdVxK, hfirst]
    cases s.firstKey <;> rfl
  | ldBVx x =>
    simp only [exec, execLdBVx, hoffending]
    cases s.offending 3 <;> rfl
  | ldMemVx x =>
    simp only [exec, execLdMemVx, hoffending]
    cases s.offending (x.val + 1) <;> rfl
  | ldVxMem x =>
    simp only [exec, execLdVxMem, hoffending]
    cases s.offending (x.val + 1) <;> rfl
  | _ => rfl

/-- Updating the stack to what it is is no update, so every other instruction keeps `SP` and the stack. -/
theorem exec_keeps_stack {i : Instr} {s t : State} (h : exec i s = .next t) (hret : i ≠ .ret) (hcall : ∀ nnn, i ≠ .call nnn) :
    t.sp = s.sp ∧ t.stack = s.stack := by
  have e := exec_setStack i s s.sp s.stack hret hcall
  rw [h] at e
  have ht : t = t.setStack s.sp s.stack := Host.Outcome.next.inj (h.symm.trans e)
  exact ⟨(congrArg State.sp ht :), (congrArg State.stack ht :)⟩

section
variable {s t : State} {entries : Vector Word 16}

/-- A call writes the same entry in both states, or finds both stacks full. -/
theorem exec_call_sameButStale (nnn : Addr12) (hk : ∀ k : Fin 16, k.val < s.sp.val → entries[k] = s.stack[k])
    (h : exec (.call nnn) s = .next t) : ∃ t', exec (.call nnn) (s.setStack s.sp entries) = .next t' ∧ SameButStale t t' := by
  rcases Nat.lt_or_ge s.sp.val 16 with hlt | hge
  · cases (exec_call_of_lt nnn hlt).symm.trans h
    refine ⟨_, exec_call_of_lt nnn (s := s.setStack s.sp entries) hlt, rfl, fun k hlt' => ?_⟩
    simp only [State.setPc_sp, State.setPc_stack, State.setStack_stack, State.setStack_sp, Fin.getElem_fin,
      Vector.getElem_set] at hlt' ⊢
    split
    · rfl
    · exact hk k (by omega)
  · have hfull : s.sp.val = 16 := by omega
    cases (exec_call_of_full nnn hfull).symm.trans h
    exact ⟨_, exec_call_of_full nnn (s := s.setStack s.sp entries) hfull, rfl, hk⟩

/-- A return reads an occupied entry, which both states share, or finds both stacks empty. -/
theorem exec_ret_sameButStale (hk : ∀ k : Fin 16, k.val < s.sp.val → entries[k] = s.stack[k])
    (h : exec .ret s = .next t) : ∃ t', exec .ret (s.setStack s.sp entries) = .next t' ∧ SameButStale t t' := by
  rcases Nat.eq_zero_or_pos s.sp.val with hempty | hpos
  · cases (exec_ret_of_empty hempty).symm.trans h
    exact ⟨_, exec_ret_of_empty (s := s.setStack s.sp entries) hempty, rfl, hk⟩
  · cases (exec_ret_of_pos hpos).symm.trans h
    have htop : entries[s.sp.val - 1] = s.stack[s.sp.val - 1] := hk ⟨s.sp.val - 1, by omega⟩ (Nat.sub_lt hpos (by decide))
    refine ⟨_, exec_ret_of_pos (s := s.setStack s.sp entries) hpos, ?_, fun k hlt => hk k (Nat.lt_of_lt_of_le hlt (Nat.sub_le ..))⟩
    simp only [State.setStack_stack, State.setStack_sp, htop]; rfl

/-- Every instruction keeps the relation: all but the call and the return commute with the update of the stale entries. -/
theorem exec_sameButStale {i : Instr} (hk : ∀ k : Fin 16, k.val < s.sp.val → entries[k] = s.stack[k])
    (h : exec i s = .next t) : ∃ t', exec i (s.setStack s.sp entries) = .next t' ∧ SameButStale t t' := by
  by_cases hcall : ∃ nnn, i = .call nnn
  · obtain ⟨nnn, rfl⟩ := hcall
    exact exec_call_sameButStale nnn hk h
  by_cases hret : i = .ret
  · subst hret
    exact exec_ret_sameButStale hk h
  · obtain ⟨hsp, hstack⟩ := exec_keeps_stack h hret (not_exists.mp hcall)
    refine ⟨t.setStack s.sp entries, ?_, ?_, fun k hlt => ?_⟩
    · rw [exec_setStack i s s.sp entries hret (not_exists.mp hcall), h]; rfl
    · rw [← hsp]; rfl
    · rw [hstack]; exact hk k (hsp ▸ hlt)

end

/-- Settles O20: the two states pass and fail the same checks before execution, and every instruction keeps the relation. -/
theorem staleStackEntriesAreUnobservable : Obligations.StaleStackEntriesAreUnobservable := by
  rintro s s' t ⟨hs', hk⟩ h
  obtain ⟨entries, rfl⟩ : ∃ entries, s' = s.setStack s.sp entries := ⟨s'.stack, hs'⟩
  rcases step_cases s with ⟨hh, e⟩ | ⟨hh, hf, e⟩ | ⟨hh, hf, hw, e⟩ | ⟨hh, hf, i, hi, e⟩
  · cases e.symm.trans h
    exact ⟨_, step_of_halted (s := s.setStack s.sp entries) hh, hs', hk⟩
  · cases e.symm.trans h
    exact ⟨_, step_of_fetchFaults (s := s.setStack s.sp entries) hh (s.fetchFaults_iff.mp hf), rfl, hk⟩
  · cases e.symm.trans h
    exact ⟨_, step_of_illegal (s := s.setStack s.sp entries) hh (s.fetchFaults_eq_false.mp hf) hw, rfl, hk⟩
  · obtain ⟨t', ht', hsame⟩ := exec_sameButStale hk (e.symm.trans h)
    exact ⟨t', (step_of_fetches (s := s.setStack s.sp entries) (s.fetches_iff.mpr ⟨hh, hf⟩) hi).trans ht', hsame⟩

end Sys2Proof.Machine
end

