-- ==== Sys2Proof/Proofs/MachineObligations.lean ====
section
/-!
PROOF. Rules of the whole machine (spec/60_exceptions.md R170, spec/10_state.md R22) and the host's calls (spec/60_exceptions.md R178 to
R183, spec/70_reset_and_hazards.md R190, R192).
-/
namespace Sys2Proof.Machine

/-! ### The halted core (R170) -/

theorem handle_step_of_halted {s : State} {r : FaultRecord} (h : s.halt = some r) : handle .step s = (s, .faulted r) := by
  have hstep : step s = .next s := step_of_halted (by simp [h])
  simp only [handle, hstep, stepReport, h]

/-- Settles O16: a halted core's step answers the state itself, and no other event but `reset()` writes the latch. -/
theorem onlyResetLeavesTheHaltedCore : Obligations.OnlyResetLeavesTheHaltedCore := by
  intro s r h
  refine ⟨fun e he => ?keeps, handle_step_of_halted h, rfl⟩
  case keeps =>
    have hstep (t : State) (ht : step s = .next t) : t.halt = s.halt := by
      cases (step_of_halted (by simp [h])).symm.trans ht; rfl
    exact (handle_keeps State.halt e s he (fun _ => rfl) (fun _ => hstep) (fun _ => rfl) (fun _ _ _ _ => rfl)
      (fun _ _ => rfl)).trans h

/-! ### The framebuffer (R22) -/

/-- Every instruction but 00E0 and Dxyn neither reads nor writes the framebuffer. -/
theorem avoids_of_only_fb {i : Instr} (f : Framebuffer → Framebuffer) (hcls : i ≠ .cls) (hdrw : ∀ x y n, i ≠ .drw x y n) :
    PeripheralMap.avoids { fb := f } i := by
  cases i with
  | cls => exact absurd rfl hcls
  | drw x y n => exact absurd rfl (hdrw x y n)
  | skp | sknp | ldVxK | ldVxDT | ldDTVx | ldSTVx => rfl
  | _ => trivial

theorem exec_ignores_fb {i : Instr} {s t : State} (fb : Framebuffer) (h : exec i s = .next t) (hcls : i ≠ .cls)
    (hdrw : ∀ x y n, i ≠ .drw x y n) : exec i { s with fb := fb } = .next { t with fb := fb } :=
  exec_next_mapPeripherals { fb := fun _ => fb } h (avoids_of_only_fb _ hcls hdrw)

/-- Updating the framebuffer to what it is is no update, so an instruction that ignores it keeps it. -/
theorem exec_keeps_fb {i : Instr} {s t : State} (h : exec i s = .next t) (hcls : i ≠ .cls) (hdrw : ∀ x y n, i ≠ .drw x y n) :
    t.fb = s.fb := by
  have e : t = { t with fb := s.fb } := Host.Outcome.next.inj (h.symm.trans (exec_ignores_fb s.fb h hcls hdrw))
  exact (congrArg State.fb e :)

theorem step_keeps_fb {s t : State} (h : step s = .next t) (hcls : decode s.fetchWord ≠ .instr .cls)
    (hdrw : ∀ x y n, decode s.fetchWord ≠ .instr (.drw x y n)) : t.fb = s.fb :=
  step_keeps State.fb h (fun _ _ _ => rfl) fun _ hi hx =>
    exec_keeps_fb hx (fun e => hcls (e ▸ hi)) fun x y n e => hdrw x y n (e ▸ hi)

/-- Row-major order: the pixel in column `x`, row `y` is element `y * 64 + x`. -/
theorem Framebuffer.flatten_getElem? (fb : Framebuffer) (x : Fin 64) (y : Fin 32) :
    fb.flatten[y.val * 64 + x.val]? = some (fb.pixel x y) := by
  have hrow : (y.val * 64 + x.val) / 64 = y.val := by omega
  have hcolumn : (y.val * 64 + x.val) % 64 = x.val := by omega
  rw [Vector.getElem?_flatten, dif_pos (by omega)]
  simp only [hrow, hcolumn]; rfl

/-- Settles O19: an instruction other than 00E0 and Dxyn commutes with every update of the framebuffer, so it neither depends on it nor writes
it; steps and events inherit that. -/
theorem framebufferIsWrittenByDrawClearAndReset : Obligations.FramebufferIsWrittenByDrawClearAndReset := by
  refine ⟨fun e s hreset hstep => ?events, fun _ _ => step_keeps_fb,
    fun s x y => ⟨Framebuffer.pixel_clear x y, rfl, s.fb.flatten_getElem? x y⟩, fun _ _ _ fb => exec_ignores_fb fb, fun _ _ => rfl⟩
  case events =>
    exact handle_keeps State.fb e s hreset (fun _ => rfl) (absurd · hstep) (fun _ => rfl) (fun _ _ _ _ => rfl) (fun _ _ => rfl)

/-! ### The host's calls -/

theorem font_length : Config.font.length = 80 := by decide

/-- Settles O52: the reset state's fields, the reset content of memory by address, and a reset that does not look at the state before. -/
theorem resetGivesTheResetState : Obligations.ResetGivesTheResetState := by
  intro s
  have hpeek (a : Nat) : s.hostReset.peek a = (Config.font[a]?).getD 0 := rfl
  refine ⟨s.hostReset, rfl, rfl, rfl, rfl, rfl, rfl, rfl, fun r => Vector.getElem_replicate _, fun k => Vector.getElem_replicate _,
    fun k => Vector.getElem_replicate _, Framebuffer.pixel_clear, fun a h => ?font, fun a h => ?zero, rfl, ?again⟩
  case font => rw [hpeek, List.getElem?_eq_getElem (font_length ▸ h)]; rfl
  case zero => rw [hpeek, List.getElem?_eq_none (font_length ▸ h)]; rfl
  case again => rintro rfl; rfl

/-- Settles O53: an accepted load is one span of writes at 0x200, and a longer image is refused. -/
theorem loadCopiesTheImage : Obligations.LoadCopiesTheImage := by
  intro image s
  refine ⟨fun hle => ⟨_, handle_load_of_le image s hle, rfl, fun hm k hk => ?copied, fun a ha => ?others⟩,
    handle_load_of_gt image s⟩
  case copied => exact State.peek_of_load hm (if_neg (Nat.not_lt.mpr hle)) k hk
  case others => exact Memory.peek_pokeSpan_outside a image s.mem 0x200 ha

theorem State.soundActive_iff (s : State) : s.soundActive = true ↔ 0 < s.st.toNat := by
  rw [State.soundActive, bne_iff_ne, Nat.pos_iff_ne_zero]
  exact not_congr BitVec.toNat_inj.symm

/-- Settles O54: each read answers a field and leaves the state. -/
theorem hostReadsAnswerTheStateAndChangeNothing : Obligations.HostReadsAnswerTheStateAndChangeNothing :=
  fun s => ⟨rfl, s.soundActive_iff, rfl, fun r => handle_getRegister_of_lt r.val s r.isLt⟩

/-- Settles O55: the three calls that check an index. -/
theorem hostIndexesAreChecked : Obligations.HostIndexesAreChecked :=
  fun i p b s h => ⟨handle_setKey_of_ge i p s h, handle_getRegister_of_ge i s h, handle_setRegister_of_ge i b s h⟩

end Sys2Proof.Machine
end

