-- ==== Sys2Proof/Proofs/FlagObligations.lean ====
section
/-!
PROOF. Statements of spec/43_load_alu.md on the instructions that write a result and the flag (R116 to R122).
-/
namespace Sys2Proof.Machine

/-! ### The two writes (R122) -/

section
variable (s : State) (x : Reg) (result : Byte) (flag : Bool)

/-- The flag is written last, so it stands in `VF` whatever `x` is. -/
theorem State.resultThenFlag_getV_vf : (s.resultThenFlag x result flag).getV Reg.vf = flagByte flag := by
  rw [State.resultThenFlag_eq, State.getV_setV_same]

theorem State.resultThenFlag_getV (hx : x ≠ Reg.vf) : (s.resultThenFlag x result flag).getV x = result := by
  rw [State.resultThenFlag_eq, State.getV_setV_other _ _ _ _ hx, State.getV_setV_same]

/-- The result is written last, so it stands in `V[x]` whatever `x` is. -/
theorem State.flagThenResult_getV : (s.flagThenResult x result flag).getV x = result := by
  rw [State.flagThenResult_eq, State.getV_setV_same]

theorem State.flagThenResult_getV_vf (hx : x ≠ Reg.vf) : (s.flagThenResult x result flag).getV Reg.vf = flagByte flag := by
  rw [State.flagThenResult_eq, State.getV_setV_other _ _ _ _ hx.symm, State.getV_setV_same]

theorem State.frame_resultThenFlag : Frame { regs := [x, Reg.vf] } s (s.resultThenFlag x result flag).advance :=
  ((Frame.refl _ s).resultThenFlag x result flag (by simp) (by simp)).advance

theorem State.frame_flagThenResult : Frame { regs := [x, Reg.vf] } s (s.flagThenResult x result flag).advance :=
  ((Frame.refl _ s).flagThenResult x result flag (by simp) (by simp)).advance

end

/-! ### The flag's value (R11, R116 to R121) -/

theorem flagByte_decide (p : Prop) [Decidable p] : flagByte (decide p) = if p then 1#8 else 0#8 := by
  by_cases h : p <;> simp [flagByte, h]

theorem flagByte_toNat (b : Bool) : (flagByte b).toNat = b.toNat := by cases b <;> rfl

theorem shiftedOutRight_toNat (a : Byte) : (flagByte (shiftedOutRight a)).toNat = a.toNat % 2 := by
  rw [flagByte_toNat, shiftedOutRight, BitVec.getLsbD, Nat.toNat_testBit, pow_zero, Nat.div_one]

theorem shiftedOutLeft_toNat (a : Byte) : (flagByte (shiftedOutLeft a)).toNat = a.toNat / 128 := by
  have := a.isLt
  rw [flagByte_toNat, shiftedOutLeft, BitVec.getLsbD, Nat.toNat_testBit]
  omega

theorem sub_toNat_byte (a b : Byte) : (a - b).toNat = (a.toNat + 256 - b.toNat) % 256 := by
  have := b.isLt
  rw [BitVec.toNat_sub]
  omega

/-! ### The five instructions -/

/-- Settles O33: the flag is the last of the two writes, and both are of values read before them. -/
theorem addSetsTheCarry : Obligations.AddSetsTheCarry := by
  intro x y s
  refine ⟨_, rfl, rfl, fun hx => ?sum, ?carry, s.frame_resultThenFlag x _ _⟩
  case sum => rw [State.advance_getV, State.resultThenFlag_getV _ _ _ _ hx, BitVec.toNat_add]
  case carry => rw [State.advance_getV, State.resultThenFlag_getV_vf, carry, flagByte_decide]

/-- Settles O34: as for the addition, with the minuend and the subtrahend in either order. -/
theorem subtractionsSetNotBorrow : Obligations.SubtractionsSetNotBorrow := by
  intro x y s
  refine ⟨_, _, rfl, rfl, fun hx => ?difference, ?notBorrow, s.frame_resultThenFlag x _ _,
    rfl, rfl, fun hx => ?reverse, ?reverseNotBorrow, s.frame_resultThenFlag x _ _⟩
  case difference => rw [State.advance_getV, State.resultThenFlag_getV _ _ _ _ hx, sub_toNat_byte]
  case notBorrow => rw [State.advance_getV, State.resultThenFlag_getV_vf, notBorrow, flagByte_decide]
  case reverse => rw [State.advance_getV, State.resultThenFlag_getV _ _ _ _ hx, sub_toNat_byte]
  case reverseNotBorrow => rw [State.advance_getV, State.resultThenFlag_getV_vf, notBorrow, flagByte_decide]

/-- Settles O35: the shifted value is the last of the two writes, and no meaning reads `V[y]`. -/
theorem shiftsMoveTheBitOut : Obligations.ShiftsMoveTheBitOut := by
  intro x y s
  refine ⟨_, _, rfl, rfl, ?half, fun hx => ?lowBit, s.frame_flagThenResult x _ _,
    rfl, rfl, ?double, fun hx => ?highBit, s.frame_flagThenResult x _ _, fun _ => ⟨rfl, rfl⟩⟩
  case half => rw [State.advance_getV, State.flagThenResult_getV, BitVec.toNat_ushiftRight, Nat.shiftRight_one]
  case lowBit => rw [State.advance_getV, State.flagThenResult_getV_vf _ _ _ _ hx, shiftedOutRight_toNat]
  case double => rw [State.advance_getV, State.flagThenResult_getV, BitVec.toNat_shiftLeft, Nat.shiftLeft_eq, pow_one]
  case highBit => rw [State.advance_getV, State.flagThenResult_getV_vf _ _ _ _ hx, shiftedOutLeft_toNat]

end Sys2Proof.Machine
end

