-- ==== Sys2Proof/Proofs/DataAccessObligations.lean ====
section
/-!
PROOF. Statements of spec/44_index_memory.md on the index add, the decimal store, the register store and the register load (R131, R133 to
R135), with the range check (spec/20_memory.md R44) and the fetch after a store (R54).
-/
namespace Sys2Proof.Machine

/-- Settles O37: one write of `I`, whose sum the width of `I` reduces. -/
theorem indexAddWrapsAtSixteenBits : Obligations.IndexAddWrapsAtSixteenBits := by
  intro x s
  refine ⟨_, rfl, s.setIndex_advance_eq _, ?_⟩
  rw [State.advance_index, State.setIndex_index, BitVec.toNat_add, byteOperand_toNat]

/-! ### Each access by its range check (R44) -/

section
variable (x : Reg) {s : State}

theorem exec_ldBVx_of_le (h : s.index.toNat + 2 ≤ 0xFFF) :
    exec (.ldBVx x) s = .next (s.store (bcdDigits (s.getV x))).advance := by
  rcases execLdBVx_cases x s with ⟨_, e⟩ | ⟨_, _⟩
  · exact e
  · omega

theorem exec_ldBVx_of_gt (h : 0xFFF < s.index.toNat + 2) :
    exec (.ldBVx x) s = .next (s.latch .addressOutOfRange (some (encode (.ldBVx x))) (max s.index.toNat 0x1000)) := by
  rcases execLdBVx_cases x s with ⟨_, _⟩ | ⟨_, e⟩
  · omega
  · exact e

theorem exec_ldMemVx_of_le (h : s.index.toNat + x.val ≤ 0xFFF) :
    exec (.ldMemVx x) s = .next (s.store (s.registersUpTo x)).advance := by
  rcases execLdMemVx_cases x s with ⟨_, e⟩ | ⟨_, _⟩
  · exact e
  · omega

theorem exec_ldMemVx_of_gt (h : 0xFFF < s.index.toNat + x.val) :
    exec (.ldMemVx x) s = .next (s.latch .addressOutOfRange (some (encode (.ldMemVx x))) (max s.index.toNat 0x1000)) := by
  rcases execLdMemVx_cases x s with ⟨_, _⟩ | ⟨_, e⟩
  · omega
  · exact e

theorem exec_ldVxMem_of_le (h : s.index.toNat + x.val ≤ 0xFFF) :
    exec (.ldVxMem x) s = .next (s.loadRegisters x).advance := by
  rcases execLdVxMem_cases x s with ⟨_, e⟩ | ⟨_, _⟩
  · exact e
  · omega

theorem exec_ldVxMem_of_gt (h : 0xFFF < s.index.toNat + x.val) :
    exec (.ldVxMem x) s = .next (s.latch .addressOutOfRange (some (encode (.ldVxMem x))) (max s.index.toNat 0x1000)) := by
  rcases execLdVxMem_cases x s with ⟨_, _⟩ | ⟨_, e⟩
  · omega
  · exact e

theorem exec_drw_of_le (y : Reg) {n : Digit} (h : n.val = 0 ∨ s.index.toNat + (n.val - 1) ≤ 0xFFF) :
    exec (.drw x y n) s =
      .next ((s.setFB (s.drawnSprite x y n).1).setV Reg.vf (flagByte (s.drawnSprite x y n).2)).advance := by
  rcases execDrw_cases x y n s with ⟨_, e⟩ | ⟨_, _, _⟩
  · exact e
  · omega

theorem exec_drw_of_gt (y : Reg) {n : Digit} (hn : 0 < n.val) (h : 0xFFF < s.index.toNat + (n.val - 1)) :
    exec (.drw x y n) s = .next (s.latch .addressOutOfRange (some (encode (.drw x y n))) (max s.index.toNat 0x1000)) := by
  rcases execDrw_cases x y n s with ⟨_, _⟩ | ⟨_, _, e⟩
  · omega
  · exact e

end

/-- Settles O41: the four failing range checks. -/
theorem rangeFaultsChangeOnlyTheLatch : Obligations.RangeFaultsChangeOnlyTheLatch :=
  fun x y _ _ => ⟨exec_ldBVx_of_gt x, exec_ldMemVx_of_gt x, exec_ldVxMem_of_gt x, exec_drw_of_gt x y⟩

/-! ### The stored bytes -/

/-- The digits of R133: the decimal places of the byte, hundreds first. -/
theorem bcdDigits_getElem_toNat (b : Byte) (k : Fin 3) : (bcdDigits b)[k.val].toNat = b.toNat / 10 ^ (2 - k.val) % 10 := by
  have := b.isLt
  fin_cases k <;> simp [bcdDigits] <;> omega

section
variable (x : Reg) {s : State}

theorem State.storeDigits_peek (hm : s.mem.wf = true) (h : s.index.toNat + 2 ≤ 0xFFF) (k : Fin 3) :
    ((s.store (bcdDigits (s.getV x))).peek (s.index.toNat + k.val)).toNat = (s.getV x).toNat / 10 ^ (2 - k.val) % 10 := by
  have hpeek := s.store_peek_inside (bcdDigits (s.getV x)) k.val hm (by simp; omega) k.isLt
  exact (congrArg BitVec.toNat hpeek).trans (bcdDigits_getElem_toNat (s.getV x) k)

theorem State.storeRegisters_peek (hm : s.mem.wf = true) (h : s.index.toNat + x.val ≤ 0xFFF) {r : Reg} (hr : r ≤ x) :
    (s.store (s.registersUpTo x)).peek (s.index.toNat + r.val) = s.getV r := by
  have hlength := s.length_registersUpTo x
  rw [s.store_peek_inside _ r.val hm (by rw [hlength]; simp; omega) (by rw [hlength]; exact Nat.lt_succ_of_le hr),
    State.getElem_registersUpTo]

end

/-- A byte that none of the stored ones lies on reads as before (R43). -/
theorem State.store_peek_of_ne (s : State) (bytes : List Byte) {a : Nat} (h : ∀ k, k < bytes.length → s.index.toNat + k ≠ a) :
    (s.store bytes).peek a = s.peek a :=
  s.store_peek_outside bytes a fun ⟨hle, hlt⟩ => h (a - s.index.toNat) (by omega) (by omega)

/-- Settles O38: one store of the three digits. -/
theorem bcdStoresTheDecimalDigits : Obligations.BcdStoresTheDecimalDigits := by
  intro x s hm h
  have hdigit := State.storeDigits_peek x hm h
  refine ⟨_, exec_ldBVx_of_le x h, rfl, rfl, ?hundreds, hdigit 1, ?ones, (Frame.store _ s _ le_rfl).advance⟩
  case hundreds =>
    have hb := (s.getV x).isLt
    exact (hdigit 0).trans (Nat.mod_eq_of_lt (by simp; omega))
  case ones => exact (hdigit 2).trans (by simp)

/-- Settles O39: one store of the registers up to `x`. -/
theorem storeCopiesRegistersToMemory : Obligations.StoreCopiesRegistersToMemory := fun x s hm h =>
  ⟨_, exec_ldMemVx_of_le x h, rfl, fun _ hr => State.storeRegisters_peek x hm h hr,
    (Frame.store _ s _ (s.length_registersUpTo x).le).advance⟩

/-- Settles O40: the registers up to `x` are read from memory, and the footprint holds no other. -/
theorem loadCopiesMemoryToRegisters : Obligations.LoadCopiesMemoryToRegisters := by
  intro x s h
  refine ⟨_, exec_ldVxMem_of_le x h, rfl, fun r => ?loaded, exec_frame (exec_ldVxMem_of_le x h) (decide_eq_true h)⟩
  case loaded => rw [State.advance_getV, State.loadRegisters_getV]; rfl

/-- Settles O42: the load reads the bytes that the store wrote. -/
theorem storedRegistersLoadBack : Obligations.StoredRegistersLoadBack := by
  intro x s t u hm h hstore hmem hindex
  cases (exec_ldMemVx_of_le x h).symm.trans hstore
  have hu : u.index.toNat = s.index.toNat := congrArg BitVec.toNat hindex
  refine ⟨_, exec_ldVxMem_of_le x (hu ▸ h), fun r hr => ?_⟩
  rw [State.advance_getV, State.loadRegisters_getV, if_pos (Fin.le_def.mp hr), State.peek_eq, hmem, hu]
  exact State.storeRegisters_peek x hm h hr

/-! ### The fetch after a store (R54) -/

theorem State.highByte_fetchWord (s : State) : highByte s.fetchWord = s.peek s.pc.toNat := highByte_wordOfBytes ..

theorem State.lowByte_fetchWord (s : State) : lowByte s.fetchWord = s.peek (s.pc.toNat + 1) := lowByte_wordOfBytes ..

/-- Settles O43: each byte of the next word is a read of the memory that the store left, of a stored byte or of another. -/
theorem nextFetchSeesTheStore : Obligations.NextFetchSeesTheStore := by
  refine ⟨fun x s t hm h he => ?registers, fun x s t hm h he => ?digits⟩
  case registers =>
    cases (exec_ldMemVx_of_le x h).symm.trans he
    have hin {a : Nat} {r : Reg} (hr : r ≤ x) (ha : s.index.toNat + r.val = a) :
        (s.store (s.registersUpTo x)).peek a = s.getV r := ha ▸ State.storeRegisters_peek x hm h hr
    have hout {a : Nat} (ha : ∀ r : Reg, r ≤ x → s.index.toNat + r.val ≠ a) :
        (s.store (s.registersUpTo x)).peek a = s.peek a := by
      refine s.store_peek_of_ne _ fun k hk => ?_
      rw [State.length_registersUpTo] at hk
      exact ha ⟨k, by omega⟩ (Nat.le_of_lt_succ hk)
    rw [State.highByte_fetchWord, State.lowByte_fetchWord]
    exact ⟨rfl, fun r hr => ⟨hin hr, hin hr⟩, hout, hout⟩
  case digits =>
    cases (exec_ldBVx_of_le x h).symm.trans he
    have hin {a : Nat} {k : Fin 3} (ha : s.index.toNat + k.val = a) :
        ((s.store (bcdDigits (s.getV x))).peek a).toNat = (s.getV x).toNat / 10 ^ (2 - k.val) % 10 :=
      ha ▸ State.storeDigits_peek x hm h k
    have hout {a : Nat} (ha : ∀ k : Fin 3, s.index.toNat + k.val ≠ a) :
        (s.store (bcdDigits (s.getV x))).peek a = s.peek a :=
      s.store_peek_of_ne _ fun k hk => ha ⟨k, hk⟩
    rw [State.highByte_fetchWord, State.lowByte_fetchWord]
    exact ⟨rfl, fun k => ⟨hin, hin⟩, hout, hout⟩

end Sys2Proof.Machine
end

