-- ==== Sys2Proof/Proofs/DeviceObligations.lean ====
section
/-!
PROOF. Statements of spec/45_random_keypad_timers.md on the random byte and the keypad skips (R140 to R142, R147).
-/
namespace Sys2Proof.Machine

/-! ### The random byte (R140) -/

/-- Settles O44: one register write of the free byte under the mask, and one free value taken. -/
theorem randomByteIsMasked : Obligations.RandomByteIsMasked := by
  intro x kk s
  have hvalue : (s.setV x (s.rand8 &&& kk)).drawn.advance.getV x = s.rand8 &&& kk := by
    rw [State.advance_getV, State.drawn_getV, State.getV_setV_same]
  refine ⟨_, rfl, rfl, hvalue, fun k hk => ?masked, Nat.succ_ne_self s.draws,
    (((Frame.refl _ s).setV x _ (List.mem_singleton_self x)).drawn rfl).advance⟩
  case masked => rw [hvalue, BitVec.getLsbD_and, hk, Bool.and_false]

/-! ### The keypad skips (R141, R142, R147) -/

theorem State.skipIf_eq (s : State) (c : Bool) : s.skipIf c = { s with pc := if c then s.pc + 2 + 2 else s.pc + 2 } := by
  cases c <;> rfl

theorem State.skipIf_not_eq (s : State) (c : Bool) : s.skipIf (!c) = { s with pc := if c then s.pc + 2 else s.pc + 2 + 2 } := by
  cases c <;> rfl

section
variable (x : Reg) {s : State}

theorem exec_skp_of_lt (h : (s.getV x).toNat < 16) :
    exec (.skp x) s = .next { s with pc := if s.key ⟨(s.getV x).toNat, h⟩ then s.pc + 2 + 2 else s.pc + 2 } := by
  rcases execSkp_cases x s with ⟨_, e⟩ | ⟨_, _⟩
  · rw [State.skipIf_eq] at e; exact e
  · omega

theorem exec_sknp_of_lt (h : (s.getV x).toNat < 16) :
    exec (.sknp x) s = .next { s with pc := if s.key ⟨(s.getV x).toNat, h⟩ then s.pc + 2 else s.pc + 2 + 2 } := by
  rcases execSknp_cases x s with ⟨_, e⟩ | ⟨_, _⟩
  · rw [State.skipIf_not_eq] at e; exact e
  · omega

theorem exec_skp_of_gt (h : 15 < (s.getV x).toNat) :
    exec (.skp x) s = .next (s.latch .indexOutOfRange (some (encode (.skp x))) (s.getV x).toNat) := by
  rcases execSkp_cases x s with ⟨_, _⟩ | ⟨_, e⟩
  · omega
  · exact e

theorem exec_sknp_of_gt (h : 15 < (s.getV x).toNat) :
    exec (.sknp x) s = .next (s.latch .indexOutOfRange (some (encode (.sknp x))) (s.getV x).toNat) := by
  rcases execSknp_cases x s with ⟨_, _⟩ | ⟨_, e⟩
  · omega
  · exact e

end

/-- Settles O45: the two passing checks of the key's number. -/
theorem keypadSkipsTestTheKey : Obligations.KeypadSkipsTestTheKey := fun x _ h => ⟨exec_skp_of_lt x h, exec_sknp_of_lt x h⟩

/-- Settles O46: the two failing ones. -/
theorem keypadIndexFaultsChangeOnlyTheLatch : Obligations.KeypadIndexFaultsChangeOnlyTheLatch :=
  fun x _ h => ⟨exec_skp_of_gt x h, exec_sknp_of_gt x h⟩

end Sys2Proof.Machine
end

