-- ==== Sys2Proof/Proofs/DisplayObligations.lean ====
section
/-!
PROOF. Statements of spec/46_display.md: the clear instruction and the sprite draw (R150 to R153).
-/
namespace Sys2Proof.Machine

/-! ### The clear instruction (R150) -/

/-- Settles O48: one write of the whole framebuffer, and the decoder drops no bit of the word. -/
theorem clearTurnsEveryPixelOff : Obligations.ClearTurnsEveryPixelOff := by
  refine ⟨fun s => ⟨_, rfl, Framebuffer.pixel_clear, rfl⟩, fun w => ⟨fun h => (encode_of_decode h).symm, ?_⟩⟩
  rintro rfl; rfl

/-! ### The sprite draw (R151 to R153) -/

@[simp] theorem State.length_fetchBytes (s : State) (count : Nat) : (s.fetchBytes count).length = count :=
  Memory.length_peekSpan ..

@[simp] theorem State.getElem_fetchBytes (s : State) (count k : Nat) (h : k < (s.fetchBytes count).length) :
    (s.fetchBytes count)[k] = s.peek (s.index.toNat + k) := Memory.getElem_peekSpan ..

/-- The rows that a draw reads touch the pixels of R151. -/
theorem State.touches_iff (s : State) (x y : Reg) (n : Digit) (px : Fin 64) (py : Fin 32) :
    s.touches x y n px py ↔ touched (s.getV x).toNat (s.getV y).toNat (s.fetchBytes n.val) px py = true := by
  rw [touched_iff]
  constructor
  · rintro ⟨row, col, hrow, hcol, hbit, hx, hy⟩
    refine ⟨row, by simpa using hrow, col, hcol, ?_, Fin.ext hx.symm, Fin.ext hy.symm⟩
    simpa using hbit
  · rintro ⟨row, hrow, col, hcol, hbit, hx, hy⟩
    refine ⟨row, col, by simpa using hrow, hcol, ?_, (congrArg Fin.val hx).symm, (congrArg Fin.val hy).symm⟩
    simpa using hbit

section
variable (s : State) (x y : Reg) (n : Digit)

/-- A sprite has fewer rows than the screen. -/
theorem State.length_fetchBytes_lt : (s.fetchBytes n.val).length < 32 := by
  rw [State.length_fetchBytes]; omega

theorem State.drawnSprite_pixel_of_touches {px : Fin 64} {py : Fin 32} (h : s.touches x y n px py) :
    (s.drawnSprite x y n).1.pixel px py = !s.fb.pixel px py := by
  rw [State.drawnSprite, Canvas.drawRows_pixel _ _ _ _ _ _ (s.length_fetchBytes_lt n), (s.touches_iff x y n px py).mp h,
    Bool.xor_true]

theorem State.drawnSprite_pixel_of_not_touches {px : Fin 64} {py : Fin 32} (h : ¬ s.touches x y n px py) :
    (s.drawnSprite x y n).1.pixel px py = s.fb.pixel px py := by
  rw [State.drawnSprite, Canvas.drawRows_pixel _ _ _ _ _ _ (s.length_fetchBytes_lt n),
    Bool.eq_false_iff.mpr ((s.touches_iff x y n px py).not.mp h), Bool.xor_false]

theorem State.drawnSprite_collision_iff :
    (s.drawnSprite x y n).2 = true ↔ ∃ px py, s.touches x y n px py ∧ s.fb.pixel px py = true := by
  rw [State.drawnSprite, Canvas.drawRows_collision _ _ _ _ (s.length_fetchBytes_lt n)]
  simp [State.touches_iff]

/-- The state after a draw whose sprite exists. -/
def State.afterDraw : State := ((s.setFB (s.drawnSprite x y n).1).setV Reg.vf (flagByte (s.drawnSprite x y n).2)).advance

theorem State.afterDraw_fb : (s.afterDraw x y n).fb = (s.drawnSprite x y n).1 := rfl

theorem State.afterDraw_getV_vf : (s.afterDraw x y n).getV Reg.vf = flagByte (s.drawnSprite x y n).2 := by
  rw [State.afterDraw, State.advance_getV, State.getV_setV_same]

theorem State.afterDraw_getV {r : Reg} (hr : r ≠ Reg.vf) : (s.afterDraw x y n).getV r = s.getV r := by
  rw [State.afterDraw, State.advance_getV, State.getV_setV_other _ _ _ _ hr, State.setFB_getV]

theorem State.afterDraw_vf_of_collision (h : ∃ px py, s.touches x y n px py ∧ s.fb.pixel px py = true) :
    (s.afterDraw x y n).getV Reg.vf = 1#8 := by
  rw [State.afterDraw_getV_vf, (s.drawnSprite_collision_iff x y n).mpr h]; rfl

theorem State.afterDraw_vf_of_no_collision (h : ∀ px py, s.touches x y n px py → s.fb.pixel px py = false) :
    (s.afterDraw x y n).getV Reg.vf = 0#8 := by
  have hfree : (s.drawnSprite x y n).2 = false := by
    rw [Bool.eq_false_iff, ne_eq, s.drawnSprite_collision_iff x y n]
    rintro ⟨px, py, ht, hon⟩
    cases (h px py ht).symm.trans hon
  rw [State.afterDraw_getV_vf, hfree]; rfl

/-- When neither coordinate is `VF` the same sprite lies where it lay before the draw. -/
theorem State.afterDraw_touches_iff (hx : x ≠ Reg.vf) (hy : y ≠ Reg.vf) (px : Fin 64) (py : Fin 32) :
    (s.afterDraw x y n).touches x y n px py ↔ s.touches x y n px py := by
  unfold State.touches
  rw [s.afterDraw_getV x y n hx, s.afterDraw_getV x y n hy]
  exact Iff.rfl

/-- The second draw inverts again what the first inverted (R153). -/
theorem State.afterDraw_afterDraw_fb (hx : x ≠ Reg.vf) (hy : y ≠ Reg.vf) :
    ((s.afterDraw x y n).afterDraw x y n).fb = s.fb := by
  refine Framebuffer.ext_pixel _ _ fun px py => ?_
  rw [State.afterDraw_fb]
  by_cases h : s.touches x y n px py
  · rw [State.drawnSprite_pixel_of_touches _ _ _ _ ((s.afterDraw_touches_iff x y n hx hy px py).mpr h), State.afterDraw_fb,
      s.drawnSprite_pixel_of_touches x y n h, Bool.not_not]
  · rw [State.drawnSprite_pixel_of_not_touches _ _ _ _ ((s.afterDraw_touches_iff x y n hx hy px py).not.mpr h),
      State.afterDraw_fb, s.drawnSprite_pixel_of_not_touches x y n h]

end

/-- Settles O49: the sequential draw equals the draw by the set of touched pixels, in the pixels and in the collision. -/
theorem drawInvertsTheTouchedPixels : Obligations.DrawInvertsTheTouchedPixels := fun x y n s h =>
  ⟨s.afterDraw x y n, exec_drw_of_le x y h, rfl, fun _ _ => s.drawnSprite_pixel_of_touches x y n,
    fun _ _ => s.drawnSprite_pixel_of_not_touches x y n, s.afterDraw_vf_of_collision x y n, s.afterDraw_vf_of_no_collision x y n,
    (((Frame.refl _ s).setFB _ rfl).setV _ _ (List.mem_singleton_self _)).advance⟩

/-- Settles O50: no rows are no access and leave the framebuffer and the collision as they are. -/
theorem drawOfNoRowsOnlyClearsTheFlag : Obligations.DrawOfNoRowsOnlyClearsTheFlag :=
  fun x y _ => exec_drw_of_le x y (n := 0) (.inl rfl)

/-- Settles O51: the second draw touches the same pixels, each of which the first draw inverted. -/
theorem drawingTwiceRestoresTheScreen : Obligations.DrawingTwiceRestoresTheScreen := by
  intro x y n s t hx hy h he
  obtain rfl : s.afterDraw x y n = t := Host.Outcome.next.inj ((exec_drw_of_le x y h).symm.trans he)
  refine ⟨(s.afterDraw x y n).afterDraw x y n, exec_drw_of_le x y h, s.afterDraw_afterDraw_fb x y n hx hy,
    fun hoff => ⟨s.afterDraw_vf_of_no_collision x y n hoff, ?collision, ?untouched⟩⟩
  case collision =>
    rintro ⟨px, py, ht⟩
    have hon : (s.afterDraw x y n).fb.pixel px py = true := by
      rw [State.afterDraw_fb, s.drawnSprite_pixel_of_touches x y n ht, hoff px py ht]; rfl
    exact State.afterDraw_vf_of_collision _ _ _ _ ⟨px, py, (s.afterDraw_touches_iff x y n hx hy px py).mpr ht, hon⟩
  case untouched =>
    intro hnone
    refine ⟨State.afterDraw_vf_of_no_collision _ _ _ _ fun px py ht => ?_, Framebuffer.ext_pixel _ _ fun px py => ?_⟩
    · exact absurd ((s.afterDraw_touches_iff x y n hx hy px py).mp ht) (hnone px py)
    · exact s.drawnSprite_pixel_of_not_touches x y n (hnone px py)

end Sys2Proof.Machine
end
